-- ==== Sys2Proof/Word.lean ====
section
/-! DEFINITION. The word types of the block (00_scope.md R11, R12). -/

namespace Sys2Proof

/-- A symbol, and one byte of a payload: 8 bits (R11). -/
abbrev Byte := BitVec 8

/-- A command word, and the VALUE of a response: 32 bits (R12). -/
abbrev Word := BitVec 32

end Sys2Proof
end

