-- ==== Sys2Proof/Syntax.lean ====
section
/-! DEFINITION. Commands as the host sends them and as the decoder names them
(30_encoding.md R52, R61). -/

namespace Sys2Proof

/-- A command as it stands at the port: the command word and the input payload `IN` (R52). -/
structure Command where
  word : Word
  payload : List Byte
  deriving DecidableEq, Repr

/-- The decoded commands of SCB-1, with the operands R61 names. A width operand keeps the 3 bits of
field W; `Instr.wellFormed` says which values the decoder admits. -/
inductive Instr where
  /-- CODEOF s (40_alphabet_lookup.md R69). -/
  | codeof (s : Byte)
  /-- SYMOF a (40_alphabet_lookup.md R70). -/
  | symof (a : Byte)
  /-- APPEND bit (41_bit_buffer.md R75). -/
  | append (bit : Bool)
  /-- POP (41_bit_buffer.md R76). -/
  | pop
  /-- LENGTH (41_bit_buffer.md R77). -/
  | length
  /-- PACK w, a (42_packer.md R82). -/
  | pack (w : BitVec 3) (a : Byte)
  /-- UNPACK w (42_packer.md R84). -/
  | unpack (w : BitVec 3)
  /-- ENCODE w of the text t, the input payload (43_codec.md R87). -/
  | encode (w : BitVec 3) (t : List Byte)
  /-- DECODE at the width selector wsel, 0 being the instance width (43_codec.md R90). -/
  | decode (wsel : BitVec 3)
  /-- BITLEN (43_codec.md R91). -/
  | bitlen
  /-- SYMWIDTH (43_codec.md R92). -/
  | symwidth
  /-- SYMCOUNT (43_codec.md R93). -/
  | symcount
  /-- RENDER (41_bit_buffer.md R78). -/
  | render
  /-- CLEAR (43_codec.md R94). -/
  | clear
  deriving DecidableEq, Repr

end Sys2Proof
end

