-- ==== Sys2Proof/WellFormed.lean ====
section
/-! DEFINITION. Which terms of `Instr` are commands: the ranges of the width operands
(00_scope.md R7; 30_encoding.md R56). -/

namespace Sys2Proof

/-- A bit-width is one of 1, 2, 3, 4, 5, 6 (00_scope.md R7). -/
def legalWidth (w : BitVec 3) : Bool :=
  1 ≤ w.toNat && w.toNat ≤ 6

/-- DECODE's width selector is one of 0 to 6 (R56). -/
def legalSelector (wsel : BitVec 3) : Bool :=
  wsel.toNat ≤ 6

/-- The commands the decoder can produce (R56, R63). Every other operand uses all the values of its
type. -/
def Instr.wellFormed : Instr → Bool
  | .codeof _ => true
  | .symof _ => true
  | .append _ => true
  | .pop => true
  | .length => true
  | .pack w _ => legalWidth w
  | .unpack w => legalWidth w
  | .encode w _ => legalWidth w
  | .decode wsel => legalSelector wsel
  | .bitlen => true
  | .symwidth => true
  | .symcount => true
  | .render => true
  | .clear => true

end Sys2Proof
end

