-- ==== Sys2Proof/Decode.lean ====
section
/-! DEFINITION. The command decoder, total on every word and payload, and the encoder
(30_encoding.md R53 to R61, R68). -/

namespace Sys2Proof

/-- Field OP, bits 31:28 (R53). -/
def opField (word : Word) : BitVec 4 := word.extractLsb' 28 4

/-- Field RSV, bits 27:11 (R53). -/
def rsvField (word : Word) : BitVec 17 := word.extractLsb' 11 17

/-- Field W, bits 10:8 (R53). -/
def wField (word : Word) : BitVec 3 := word.extractLsb' 8 3

/-- Field A, bits 7:0 (R53). -/
def aField (word : Word) : Byte := word.extractLsb' 0 8

/-- The one verdict on a command the decoder does not checked, with the word it reports (R61). -/
inductive DecodeError where
  | illegalCommand (cmd : Word)
  deriving DecidableEq, Repr

/-- `i` where the opcode's operand check holds, else IllegalCommand with the word `cmd`. -/
def checked (check : Bool) (cmd : Word) (i : Instr) : Except DecodeError Instr :=
  if check then .ok i else .error (.illegalCommand cmd)

/-- The case analysis of R61 on OP, once RSV and the payload are known to be legal. -/
def decodeOp (op : BitVec 4) (w : BitVec 3) (a : Byte) (c : Command) : Except DecodeError Instr :=
  match op.toNat with
  | 0x1 => checked (w == 0) c.word (.codeof a)
  | 0x2 => checked (w == 0) c.word (.symof a)
  | 0x3 => checked (w == 0 && a.extractLsb' 1 7 == 0) c.word (.append (a.getLsbD 0))
  | 0x4 => checked (w == 0 && a == 0) c.word .pop
  | 0x5 => checked (w == 0 && a == 0) c.word .length
  | 0x6 => checked (legalWidth w) c.word (.pack w a)
  | 0x7 => checked (legalWidth w && a == 0) c.word (.unpack w)
  | 0x8 => checked (legalWidth w && a == 0) c.word (.encode w c.payload)
  | 0x9 => checked (legalSelector w && a == 0) c.word (.decode w)
  | 0xA => checked (w == 0 && a == 0) c.word .bitlen
  | 0xB => checked (w == 0 && a == 0) c.word .symwidth
  | 0xC => checked (w == 0 && a == 0) c.word .symcount
  | 0xD => checked (w == 0 && a == 0) c.word .render
  | 0xE => checked (w == 0 && a == 0) c.word .clear
  | _ => .error (.illegalCommand c.word)

/-- The decoder `decode(cmd, IN)` of R61. It reads no state. -/
def decode (c : Command) : Except DecodeError Instr :=
  if rsvField c.word ≠ 0 then .error (.illegalCommand c.word)
  else if opField c.word ≠ 0x8 ∧ c.payload ≠ [] then .error (.illegalCommand c.word)
  else decodeOp (opField c.word) (wField c.word) (aField c.word) c

/-- The word with the given OP, W and A, and RSV = 0 (R53, R54). -/
def commandWord (op : BitVec 4) (w : BitVec 3) (a : Byte) : Word := op ++ 0#17 ++ w ++ a

/-- The command word and payload of an instruction (R68). -/
def encode : Instr → Command
  | .codeof s => ⟨commandWord 0x1 0 s, []⟩
  | .symof a => ⟨commandWord 0x2 0 a, []⟩
  | .append bit => ⟨commandWord 0x3 0 (BitVec.ofNat 8 bit.toNat), []⟩
  | .pop => ⟨commandWord 0x4 0 0, []⟩
  | .length => ⟨commandWord 0x5 0 0, []⟩
  | .pack w a => ⟨commandWord 0x6 w a, []⟩
  | .unpack w => ⟨commandWord 0x7 w 0, []⟩
  | .encode w t => ⟨commandWord 0x8 w 0, t⟩
  | .decode wsel => ⟨commandWord 0x9 wsel 0, []⟩
  | .bitlen => ⟨commandWord 0xA 0 0, []⟩
  | .symwidth => ⟨commandWord 0xB 0 0, []⟩
  | .symcount => ⟨commandWord 0xC 0 0, []⟩
  | .render => ⟨commandWord 0xD 0 0, []⟩
  | .clear => ⟨commandWord 0xE 0 0, []⟩

/-- The command whose word is the low `nbits` bits of `w` and whose payload is empty. The word
stands whole at the port, so no byte order applies (20_memory.md R42). -/
def tableCommand (nbits w : Nat) : Command := ⟨BitVec.ofNat 32 (w % 2 ^ nbits), []⟩

/-- What the decoder reads from a row of opcode_table.json; none where it answers IllegalCommand. -/
def decodeTableWord (nbits w : Nat) : Option Instr := (decode (tableCommand nbits w)).toOption

end Sys2Proof
end

