-- ==== Sys2Proof/Config.lean ====
section
/-! DEFINITION. The implementation parameters `ALPHA` and `CAP` (00_scope.md R9, R10), and the
opaque constants that stand for the ones a device has. -/

namespace Sys2Proof

/-- The configuration of a block: the table contents `ALPHA` (R9) and the capacity `CAP` (R10). -/
structure Config where
  alpha : Vector Byte 64
  cap : Nat
  deriving DecidableEq, Repr

/-- What R9 (a) to (c) and R10 require of a configuration. -/
structure Config.Admissible (cfg : Config) : Prop where
  /-- R9 (a): no two codes share a symbol. -/
  injective : ∀ c d : Fin 64, cfg.alpha.get c = cfg.alpha.get d → c = d
  /-- R9 (b): codes 0 to 3 are the letters A, B, C, D. -/
  letters : cfg.alpha.get 0 = 0x41 ∧ cfg.alpha.get 1 = 0x42 ∧ cfg.alpha.get 2 = 0x43 ∧
    cfg.alpha.get 3 = 0x44
  /-- R9 (c): every entry is in the printable range. -/
  printable : ∀ c : Fin 64, 0x20 ≤ (cfg.alpha.get c).toNat ∧ (cfg.alpha.get c).toNat ≤ 0x7E
  /-- R10: the capacity is at most 2^32 - 1. -/
  cap_le : cfg.cap ≤ 2 ^ 32 - 1

/-- What R9 leaves of the constraints for the entries of codes 4 to 63, the first four being A to D. -/
def OpenEntriesOk (e : Vector Byte 60) : Prop :=
  (∀ i : Fin 60, 0x20 ≤ (e.get i).toNat ∧ (e.get i).toNat ≤ 0x7E ∧
    (e.get i).toNat ∉ [0x41, 0x42, 0x43, 0x44]) ∧
  ∀ i j : Fin 60, e.get i = e.get j → i = j

/-- Some entries that meet `OpenEntriesOk`. They show that the constraints can be met and nothing
else: no value of the model is computed from them (log 1). -/
def OpenEntries.example : Vector Byte 60 :=
  ⟨⟨(List.range 58).map (fun i => BitVec.ofNat 8 (0x45 + i)) ++ [0x20, 0x21]⟩, by decide⟩

theorem OpenEntries.example_ok : OpenEntriesOk OpenEntries.example := by
  unfold OpenEntriesOk
  decide +kernel

/-- Entries for codes 4 to 63 that meet the constraints of R9. The default is only there so that
Lean knows the type is inhabited. -/
structure OpenEntries where
  entries : {e : Vector Byte 60 // OpenEntriesOk e} :=
    ⟨OpenEntries.example, OpenEntries.example_ok⟩
  deriving Inhabited

/-- The device's table entries for codes 4 to 63, which the spec leaves open (R9, D5). -/
opaque Config.openEntries : OpenEntries

/-- The device's capacity, which the spec leaves open but for its bound (R10, D6). -/
opaque Config.openCap : BitVec 32

/-- The device's configuration: A, B, C, D at codes 0 to 3 (R9 (b)), the rest open. -/
def Config.device : Config where
  alpha := ⟨⟨0x41 :: 0x42 :: 0x43 :: 0x44 :: Config.openEntries.entries.val.toList⟩, by simp⟩
  cap := Config.openCap.toNat

end Sys2Proof
end

