-- ==== Sys2Proof/Machine/State.lean ====
section
/-! DEFINITION. The state of the block (10_state.md), the events at its port, its responses, and the
state after reset. -/

namespace Sys2Proof.Machine

/-- Register MODE (10_state.md R24). -/
inductive Mode where
  /-- 0: no instance; the bit buffer is the scratch buffer. -/
  | uncon
  /-- 1: the buffer holds an immutable instance. -/
  | encoded
  deriving DecidableEq, Repr

/-- The error kinds of 60_exceptions.md R99. -/
inductive ErrorKind where
  /-- Raised by CODEOF and SYMOF. -/
  | alphabetRange
  /-- Raised by ENCODE. -/
  | invalidSymbol
  /-- Raised by POP and UNPACK. -/
  | emptySequence
  /-- Raised by DECODE with an explicit width. -/
  | corruptSequence
  /-- Reserved for the fixed-width variant; no command raises it (00_scope.md R5). -/
  | lengthMismatch
  /-- Raised by the decoder. -/
  | illegalCommand
  /-- Raised by APPEND, PACK and ENCODE. -/
  | capacity
  /-- Raised by APPEND, POP, PACK, UNPACK and ENCODE while an instance exists. -/
  | immutable
  /-- Raised by DECODE with W = 0, BITLEN, SYMWIDTH and SYMCOUNT while no instance exists. -/
  | notEncoded
  deriving DecidableEq, Repr

/-- The response to one command: STATUS, VALUE and the output payload OUT (30_encoding.md R60). -/
structure Response where
  status : BitVec 4
  value : Word
  out : List Byte
  deriving DecidableEq, Repr

/-- What the host can present at the port (60_exceptions.md R113). -/
inductive HostEvent where
  /-- A command, answered by one response. -/
  | command (c : Command)
  /-- The reset event, which has no response (70_reset_and_hazards.md R115). -/
  | reset
  deriving DecidableEq, Repr

/-- The state of the block, with what stands at its two ends. `LEN` is the length of `buf`
(10_state.md R29; log 3). -/
structure State where
  /-- `ALPHA` and `CAP`, constant (10_state.md R20; 00_scope.md R10). -/
  config : Config
  /-- `BUF[0..LEN-1]`, the head first (10_state.md R21, R29). -/
  buf : List Bool
  /-- `WIDTH` (10_state.md R23). -/
  width : BitVec 3
  /-- `MODE` (10_state.md R24). -/
  mode : Mode
  /-- The model's own: what the host will still present, in the order the port accepts it
  (20_memory.md R45; log 2). -/
  port : List HostEvent
  /-- The model's own: the responses returned so far, oldest first, the observation of
  70_reset_and_hazards.md R122. No command reads it (10_state.md R33; log 4). -/
  responses : List Response
  deriving DecidableEq, Repr

/-- The block never stops: 60_exceptions.md R114 gives it no fault, so there is no constructor and
nothing raises one (safe). -/
inductive Fault where
  deriving DecidableEq, Repr

/-- The refusals. R114 gives the block none; the one constructor is the host interface's. -/
inductive Refusal where
  /-- Raised by `exec` for an instruction without a meaning; no arm raises it (safe). -/
  | notModelled (mnemonic : String)
  deriving DecidableEq, Repr

/-- The block of configuration `cfg` right after reset (10_state.md R32), with the events the host
will present. -/
def State.afterReset (cfg : Config) (events : List HostEvent) : State where
  config := cfg
  buf := []
  width := 0
  mode := .uncon
  port := events
  responses := []

/-- The device right after reset, with nothing presented yet (10_state.md R32). -/
def State.reset : State := State.afterReset Config.device []

end Sys2Proof.Machine
end

