-- ==== Sys2Proof/Machine/Flags.lean ====
section
/-! DEFINITION. The block has no flags (10_state.md R25). Its one flag-like value is the STATUS of
each response: the status codes (30_encoding.md R62) and the saturation of the information value
(60_exceptions.md R100). -/

namespace Sys2Proof.Machine

/-- STATUS of a succeeding command (R62). -/
def okStatus : BitVec 4 := 0x0

/-- STATUS of a failing command (R62, R99). -/
def statusCode : ErrorKind → BitVec 4
  | .alphabetRange => 0x1
  | .invalidSymbol => 0x2
  | .emptySequence => 0x3
  | .corruptSequence => 0x4
  | .lengthMismatch => 0x5
  | .illegalCommand => 0x6
  | .capacity => 0x7
  | .immutable => 0x8
  | .notEncoded => 0x9

/-- An information value saturated at 2^32 - 1 (60_exceptions.md R100). -/
def saturate32 (n : Nat) : Nat := min n (2 ^ 32 - 1)

/-- `zext_32(v)` (00_scope.md R13). -/
def zext32 (v : Nat) : Word := BitVec.ofNat 32 v

end Sys2Proof.Machine
end

