-- ==== Sys2Proof/Machine/Operands.lean ====
section
/-! DEFINITION. The operand forms of the commands (30_encoding.md R56, R57, R63). -/

namespace Sys2Proof.Machine

/-- A width operand as the number it stands for, unsigned (R63). -/
abbrev widthOperand (w : BitVec 3) : Nat := w.toNat

/-- A byte operand as the number it stands for, unsigned (R63). -/
abbrev byteOperand (a : Byte) : Nat := a.toNat

/-- `c[w-1:0]`, the low `w` bits of a code (00_scope.md R13; 42_packer.md R82). -/
abbrev lowBits (w c : Nat) : Nat := c % 2 ^ w

/-- The width DECODE works at: the explicit one, or the instance's for selector 0, which needs an
instance (43_codec.md R90). -/
def selectWidth (wsel : BitVec 3) (s : State) : Option Nat :=
  if wsel = 0 then
    match s.mode with
    | .uncon => none
    | .encoded => some (widthOperand s.width)
  else some (widthOperand wsel)

end Sys2Proof.Machine
end

