-- ==== Sys2Proof/Machine/Ops.lean ====
section
/-! DEFINITION. The named operations of the block: the port, the two endings of a command (a
response and a raised error), the lookups, the bit buffer, the packer and the codec's functions. -/

namespace Sys2Proof.Machine

/-! ### Registers -/

/-- `LEN`, the number of bits in the buffer (10_state.md R22, R29). -/
def State.len (s : State) : Nat := s.buf.length

/-- The state with the given contents of the buffer, and so of `LEN`. -/
def State.setBuf (s : State) (b : List Bool) : State := { s with buf := b }

/-- A new instance: buffer, WIDTH and MODE as 43_codec.md R87 leaves them. -/
def State.beginInstance (s : State) (w : BitVec 3) (b : List Bool) : State :=
  { s with buf := b, width := w, mode := .encoded }

/-- The reset values of 10_state.md R32: every cell without a value, LEN and WIDTH 0, MODE UNCON.
CLEAR ends in them too (43_codec.md R94). -/
def State.release (s : State) : State := { s with buf := [], width := 0, mode := .uncon }

/-! ### How a command ends -/

/-- `emit(out)` and `respond(v)`: the command succeeds (00_scope.md R16). -/
def State.respond (s : State) (v : Nat) (out : List Byte) : State :=
  { s with responses := s.responses ++ [⟨okStatus, zext32 v, out⟩] }

/-- `raise E(info)`: the command fails, writes no state, and says so in its response
(00_scope.md R16; 60_exceptions.md R101). It is the block's only way to take an exception. -/
def State.raise (s : State) (e : ErrorKind) (info : Nat) : State :=
  { s with responses := s.responses ++ [⟨statusCode e, zext32 info, []⟩] }

/-! ### The port -/

/-- The next event the port accepts, with the state after accepting it (20_memory.md R45). -/
def takeEvent (s : State) : Option (HostEvent × State) :=
  match s.port with
  | [] => none
  | e :: rest => some (e, { s with port := rest })

/-- With nothing presented the block is idle and holds its state (60_exceptions.md R112). -/
def idle (s : State) : State := s

/-- The reset event (70_reset_and_hazards.md R115): it produces no response. -/
def hostReset (s : State) : State := s.release

/-- The response to a command the decoder does not admit (60_exceptions.md R100, R101). -/
def rejectCommand (e : DecodeError) (s : State) : State :=
  match e with
  | .illegalCommand cmd => s.raise .illegalCommand cmd.toNat

/-- The host puts the command `c` before everything else it will present. -/
def presentNext (c : Command) (s : State) : State := { s with port := .command c :: s.port }

/-! ### The alphabet lookup unit -/

/-- ROM read: `ALPHA[c]` (20_memory.md R36). -/
def romRead (cfg : Config) (c : Fin 64) : Byte := cfg.alpha.get c

/-- The reverse decoder `CodeOf(s)` (20_memory.md R37). -/
def codeOf (cfg : Config) (s : Byte) : Option (Fin 64) :=
  (List.finRange 64).find? fun c => romRead cfg c == s

/-- The code-space address decoder: the entry an 8-bit operand selects, or a range miss
(20_memory.md R35). -/
def selectEntry (a : Nat) : Option (Fin 64) :=
  if h : a < 64 then some ⟨a, h⟩ else none

/-- `alphabet(b)`: the first 2^b entries of the table (40_alphabet_lookup.md R71). -/
def alphabet (cfg : Config) (b : Nat) : List Byte := cfg.alpha.toList.take (2 ^ b)

/-- `valid(b, s)` (40_alphabet_lookup.md R71). -/
def valid (cfg : Config) (b : Nat) (s : Byte) : Bool :=
  match codeOf cfg s with
  | none => false
  | some c => c.val < 2 ^ b

/-! ### The packer and unpacker -/

/-- `packbits(w, c)`: the code's bits in append order, least significant first (42_packer.md R81). -/
def packbits (w c : Nat) : List Bool := (List.range w).map fun i => c.testBit i

/-- One step of the extraction loop: `(code << 1) | bit` (42_packer.md R83). -/
def shiftIn (code : Nat) (bit : Bool) : Nat := code <<< 1 ||| bit.toNat

/-- `unpackval(w, B, |B|)`: the last `w` bits of `B`, taken from the tail, the first taken as the
most significant bit (42_packer.md R83). -/
def unpackval (w : Nat) (B : List Bool) : Nat := (B.reverse.take w).foldl shiftIn 0

/-- `B` without its last `w` bits (20_memory.md R38). -/
def dropTail (w : Nat) (B : List Bool) : List Bool := B.take (B.length - w)

/-! ### The codec's functions -/

/-- The bits one symbol adds to the buffer (43_codec.md R86). A symbol without a code adds none; R86
is for texts of valid symbols, and ENCODE calls it for no other. -/
def symbolBits (cfg : Config) (w : Nat) (s : Byte) : List Bool :=
  match codeOf cfg s with
  | none => []
  | some c => packbits w (lowBits w c.val)

/-- `enc(w, t)` (43_codec.md R86): the symbols of the reversed text, packed in order. -/
def enc (cfg : Config) (w : Nat) (t : List Byte) : List Bool := t.reverse.flatMap (symbolBits cfg w)

/-- The loop of 43_codec.md R89, for the given number of symbols, on a copy of the buffer. -/
def decLoop (cfg : Config) (w : Nat) : Nat → List Bool → List Byte
  | 0, _ => []
  | n + 1, B => romRead cfg (Fin.ofNat 64 (unpackval w B)) :: decLoop cfg w n (dropTail w B)

/-- `dec(w, B, |B|)` (43_codec.md R89). -/
def dec (cfg : Config) (w : Nat) (B : List Bool) : List Byte := decLoop cfg w (B.length / w) B

/-- The byte RENDER emits for a bit: '0' or '1' (30_encoding.md R64). -/
def renderBit (b : Bool) : Byte := if b then 0x31 else 0x30

end Sys2Proof.Machine
end

