-- ==== Sys2Proof/Machine/AlphabetLookup.lean ====
section
/-! DEFINITION. The alphabet lookup family: CODEOF and SYMOF (40_alphabet_lookup.md). -/

namespace Sys2Proof.Machine

/-- CODEOF (R69). -/
def execCodeof (sym : Byte) (s : State) : Host.Outcome State Fault Refusal :=
  .next (match codeOf s.config sym with
    | none => s.raise .alphabetRange (byteOperand sym)
    | some c => s.respond c.val [])

/-- SYMOF (R70). -/
def execSymof (a : Byte) (s : State) : Host.Outcome State Fault Refusal :=
  .next (match selectEntry (byteOperand a) with
    | none => s.raise .alphabetRange (byteOperand a)
    | some c => s.respond (romRead s.config c).toNat [])

end Sys2Proof.Machine
end

