-- ==== Sys2Proof/Machine/BitBuffer.lean ====
section
/-! DEFINITION. The bit buffer family: APPEND, POP, LENGTH and RENDER (41_bit_buffer.md). -/

namespace Sys2Proof.Machine

/-- APPEND (R75). Its CapacityError saturates, as 60_exceptions.md R100 says (log 5). -/
def execAppend (bit : Bool) (s : State) : Host.Outcome State Fault Refusal :=
  .next (
    if s.mode = .encoded then s.raise .immutable 0
    else if s.len + 1 > s.config.cap then s.raise .capacity (saturate32 (s.len + 1))
    else (s.setBuf (s.buf ++ [bit])).respond 0 [])

/-- POP (R76). -/
def execPop (s : State) : Host.Outcome State Fault Refusal :=
  .next (
    if s.mode = .encoded then s.raise .immutable 0
    else match s.buf.getLast? with
      | none => s.raise .emptySequence 0
      | some v => (s.setBuf s.buf.dropLast).respond v.toNat [])

/-- LENGTH (R77). -/
def execLength (s : State) : Host.Outcome State Fault Refusal :=
  .next (s.respond s.len [])

/-- RENDER (R78): index 0 first (90_conflicts.md C1). -/
def execRender (s : State) : Host.Outcome State Fault Refusal :=
  .next (s.respond 0 (s.buf.map renderBit))

end Sys2Proof.Machine
end

