-- ==== Sys2Proof/Machine/Codec.lean ====
section
/-! DEFINITION. The codec family: ENCODE, DECODE, BITLEN, SYMWIDTH, SYMCOUNT and CLEAR
(43_codec.md). -/

namespace Sys2Proof.Machine

/-- ENCODE (R87): the mode, then the lowest invalid symbol, then the capacity, then the new
instance. -/
def execEncode (w : BitVec 3) (t : List Byte) (s : State) : Host.Outcome State Fault Refusal :=
  .next (
    if s.mode = .encoded then s.raise .immutable 0
    else match t.findIdx? fun x => !valid s.config (widthOperand w) x with
      | some k => s.raise .invalidSymbol (saturate32 k)
      | none =>
        if t.length * widthOperand w > s.config.cap then
          s.raise .capacity (saturate32 (t.length * widthOperand w))
        else (s.beginInstance w (enc s.config (widthOperand w) t)).respond 0 [])

/-- DECODE (R90): no state changes. -/
def execDecode (wsel : BitVec 3) (s : State) : Host.Outcome State Fault Refusal :=
  .next (match selectWidth wsel s with
    | none => s.raise .notEncoded 0
    | some w =>
      if s.len % w ≠ 0 then s.raise .corruptSequence s.len
      else s.respond 0 (dec s.config w s.buf))

/-- BITLEN (R91). -/
def execBitlen (s : State) : Host.Outcome State Fault Refusal :=
  .next (
    if s.mode = .uncon then s.raise .notEncoded 0
    else s.respond s.len [])

/-- SYMWIDTH (R92). -/
def execSymwidth (s : State) : Host.Outcome State Fault Refusal :=
  .next (
    if s.mode = .uncon then s.raise .notEncoded 0
    else s.respond (widthOperand s.width) [])

/-- SYMCOUNT (R93). -/
def execSymcount (s : State) : Host.Outcome State Fault Refusal :=
  .next (
    if s.mode = .uncon then s.raise .notEncoded 0
    else s.respond (s.len / widthOperand s.width) [])

/-- CLEAR (R94). -/
def execClear (s : State) : Host.Outcome State Fault Refusal :=
  .next (s.release.respond 0 [])

end Sys2Proof.Machine
end

