-- ==== Sys2Proof/Machine/Packer.lean ====
section
/-! DEFINITION. The packer family: PACK and UNPACK (42_packer.md). -/

namespace Sys2Proof.Machine

/-- PACK (R82). Its CapacityError saturates, as 60_exceptions.md R100 says (log 5). -/
def execPack (w : BitVec 3) (a : Byte) (s : State) : Host.Outcome State Fault Refusal :=
  .next (
    if s.mode = .encoded then s.raise .immutable 0
    else if s.len + widthOperand w > s.config.cap then
      s.raise .capacity (saturate32 (s.len + widthOperand w))
    else
      (s.setBuf (s.buf ++
        packbits (widthOperand w) (lowBits (widthOperand w) (byteOperand a)))).respond 0 [])

/-- UNPACK (R84). -/
def execUnpack (w : BitVec 3) (s : State) : Host.Outcome State Fault Refusal :=
  .next (
    if s.mode = .encoded then s.raise .immutable 0
    else if s.len < widthOperand w then s.raise .emptySequence s.len
    else
      (s.setBuf (dropTail (widthOperand w) s.buf)).respond (unpackval (widthOperand w) s.buf) [])

end Sys2Proof.Machine
end

