-- ==== Sys2Proof/Machine/Dispatch.lean ====
section
/-! DEFINITION. One arm for each command of SCB-1 (30_encoding.md R55). -/

namespace Sys2Proof.Machine

def exec (i : Instr) (s : State) : Host.Outcome State Fault Refusal :=
  match i with
  | .codeof sym => Sys2Proof.Machine.execCodeof sym s
  | .symof a => Sys2Proof.Machine.execSymof a s
  | .append bit => Sys2Proof.Machine.execAppend bit s
  | .pop => Sys2Proof.Machine.execPop s
  | .length => Sys2Proof.Machine.execLength s
  | .pack w a => Sys2Proof.Machine.execPack w a s
  | .unpack w => Sys2Proof.Machine.execUnpack w s
  | .encode w t => Sys2Proof.Machine.execEncode w t s
  | .decode wsel => Sys2Proof.Machine.execDecode wsel s
  | .bitlen => Sys2Proof.Machine.execBitlen s
  | .symwidth => Sys2Proof.Machine.execSymwidth s
  | .symcount => Sys2Proof.Machine.execSymcount s
  | .render => Sys2Proof.Machine.execRender s
  | .clear => Sys2Proof.Machine.execClear s

end Sys2Proof.Machine
end

