-- ==== Sys2Proof/Machine/Step.lean ====
section
/-! DEFINITION. One step of the block: it accepts the next event at its port and completes it
(00_scope.md R6, R17). -/

namespace Sys2Proof.Machine

/-- One step: a command is decoded and performed, or answered with IllegalCommand
(00_scope.md R17; 30_encoding.md R61); the reset event is performed (70_reset_and_hazards.md R115);
with nothing presented the block is idle (60_exceptions.md R112). -/
def step (s : State) : Host.Outcome State Fault Refusal :=
  match takeEvent s with
  | none => .next (idle s)
  | some (.reset, s') => .next (hostReset s')
  | some (.command c, s') =>
    match decode c with
    | .error e => .next (rejectCommand e s')
    | .ok i => exec i s'

/-- `s` with the command of an opcode table row presented next, its payload empty. The block fetches
nothing (10_state.md R19): its port is where its next command comes from (log 2). -/
def State.withFetchWord (s : State) (nbits w : Nat) : State := presentNext (tableCommand nbits w) s

end Sys2Proof.Machine
end

