-- ==== Sys2Proof/Machine/Assembler.lean ====
section
/-! DEFINITION. The spec's assembler (30_encoding.md R66) and its pseudo-instructions (R67), on lines
already read into a mnemonic and its operands; `AsmText.lean` reads them (log 8). -/

namespace Sys2Proof.Machine

/-- A line of assembly (R66). A number operand is the number written; a character literal is the
number of its byte; a text is its bytes, escapes replaced; DECODE's width may be left out. -/
inductive AsmLine where
  | codeof (sym : Nat)
  | symof (code : Nat)
  | append (bit : Nat)
  | pop
  | length
  | pack (w code : Nat)
  | unpack (w : Nat)
  | encode (w : Nat) (text : List Byte)
  | decode (w : Option Nat)
  | bitlen
  | symwidth
  | symcount
  | render
  | clear
  deriving DecidableEq, Repr

/-- The pseudo-instructions, with the document's names (R67). -/
inductive AsmPseudo where
  | codeOf (sym : Nat)
  | symbolOf (code : Nat)
  | appendBit (bit : Nat)
  | popBit
  | toText
  | bitstring
  | bitLength
  | symbolWidth
  | symbolCount
  | release
  deriving DecidableEq, Repr

/-- The one line a pseudo-instruction stands for (R67). -/
def expandPseudo : AsmPseudo → AsmLine
  | .codeOf sym => .codeof sym
  | .symbolOf code => .symof code
  | .appendBit bit => .append bit
  | .popBit => .pop
  | .toText => .decode (some 0)
  | .bitstring => .render
  | .bitLength => .bitlen
  | .symbolWidth => .symwidth
  | .symbolCount => .symcount
  | .release => .clear

/-- `i` where the operands are in the ranges R66 lists, else an assembly error. -/
def inRange (check : Bool) (i : Instr) : Option Instr := if check then some i else none

/-- The command a line stands for; none is an assembly error (R66). -/
def asmInstr : AsmLine → Option Instr
  | .codeof sym => inRange (sym ≤ 255) (.codeof (BitVec.ofNat 8 sym))
  | .symof code => inRange (code ≤ 255) (.symof (BitVec.ofNat 8 code))
  | .append bit => inRange (bit ≤ 1) (.append (bit == 1))
  | .pop => some .pop
  | .length => some .length
  | .pack w code =>
    inRange (1 ≤ w && w ≤ 6 && code ≤ 255) (.pack (BitVec.ofNat 3 w) (BitVec.ofNat 8 code))
  | .unpack w => inRange (1 ≤ w && w ≤ 6) (.unpack (BitVec.ofNat 3 w))
  | .encode w text => inRange (1 ≤ w && w ≤ 6) (.encode (BitVec.ofNat 3 w) text)
  | .decode w => inRange (w.getD 0 ≤ 6) (.decode (BitVec.ofNat 3 (w.getD 0)))
  | .bitlen => some .bitlen
  | .symwidth => some .symwidth
  | .symcount => some .symcount
  | .render => some .render
  | .clear => some .clear

/-- The command word and payload of a line (R66). -/
def assemble (line : AsmLine) : Option Command := (asmInstr line).map encode

end Sys2Proof.Machine
end

