-- ==== Sys2Proof/Safety.lean ====
section
/-! DEFINITION. Runs of the block and the invariant of its reachable states (10_state.md R26 to R28;
70_reset_and_hazards.md R122). -/

namespace Sys2Proof.Safety

open Sys2Proof.Machine

/-- `n` steps. -/
def steps : Nat → State → Host.Outcome State Fault Refusal
  | 0, s => .next s
  | n + 1, s =>
    match step s with
    | .next t => steps n t
    | .fault r => .fault r
    | .refused r => .refused r

/-- The host presents `events` at an idle block in state `s`. -/
def present (s : State) (events : List HostEvent) : State := { s with port := events }

/-- A state some run reaches: a block with some admissible configuration, the host presenting any
events after reset, any number of steps (70_reset_and_hazards.md R122). -/
def Reachable (s : State) : Prop :=
  ∃ (cfg : Config) (events : List HostEvent) (n : Nat),
    cfg.Admissible ∧ steps n (State.afterReset cfg events) = .next s

/-- The invariant of the reachable states. -/
structure Consistent (s : State) : Prop where
  /-- 00_scope.md R9, R10: the configuration meets its constraints. -/
  admissible : s.config.Admissible
  /-- 10_state.md R26. -/
  len_le_cap : s.len ≤ s.config.cap
  /-- 10_state.md R28. -/
  width_zero_iff : s.width = 0 ↔ s.mode = .uncon
  /-- 10_state.md R23: with an instance, WIDTH is a bit-width. -/
  width_legal : s.mode = .encoded → legalWidth s.width = true
  /-- 10_state.md R27: an instance is the encoding of some text over its alphabet. -/
  encodes : s.mode = .encoded → ∃ t : List Byte,
    (∀ x ∈ t, valid s.config s.width.toNat x = true) ∧ s.buf = enc s.config s.width.toNat t

/-- `s` after a command that only answered: nothing but the observation differs, and it has one more
response, `r`. -/
def Answered (s : State) (r : Response) (t : State) : Prop :=
  t = { s with responses := s.responses ++ [r] }

end Sys2Proof.Safety
end

