-- ==== Sys2Proof/Certificates/Slice0/Obligations.lean ====
section
/-! DEFINITION. The statements for the provers, from the numbered rules of spec/. A response is
written ⟨STATUS, VALUE, OUT⟩. A next state is written as the state before with the fields that
change, so each such statement is the frame of its command too. The fields `port` and `responses` are
the model's own (log 2, log 4): what the host presents, and what it has been answered. -/

open Sys2Proof Sys2Proof.Machine Sys2Proof.Safety

/-! ### Encoding -/

/-- A word of each command, read off the table of 30_encoding.md section 6 (R68, marked derived),
against the decoder. -/
def Obligations.ListedWordsDecode : Prop :=
  decode ⟨0x10000041, []⟩ = .ok (.codeof 0x41) ∧
  decode ⟨0x2000003F, []⟩ = .ok (.symof 63) ∧
  decode ⟨0x30000001, []⟩ = .ok (.append true) ∧
  decode ⟨0x40000000, []⟩ = .ok .pop ∧
  decode ⟨0x50000000, []⟩ = .ok .length ∧
  decode ⟨0x60000306, []⟩ = .ok (.pack 3 6) ∧
  decode ⟨0x70000600, []⟩ = .ok (.unpack 6) ∧
  decode ⟨0x80000100, [0x41, 0x42]⟩ = .ok (.encode 1 [0x41, 0x42]) ∧
  decode ⟨0x90000200, []⟩ = .ok (.decode 2) ∧
  decode ⟨0xA0000000, []⟩ = .ok .bitlen ∧
  decode ⟨0xB0000000, []⟩ = .ok .symwidth ∧
  decode ⟨0xC0000000, []⟩ = .ok .symcount ∧
  decode ⟨0xD0000000, []⟩ = .ok .render ∧
  decode ⟨0xE0000000, []⟩ = .ok .clear

/-- Decoding the encoding of a well-formed command gives that command (R61, R68). -/
def Obligations.DecodeOfEncode : Prop :=
  ∀ i : Instr, i.wellFormed = true → decode (encode i) = .ok i

/-- What the decoder admits is well formed, and is the encoding of what it was decoded to: each
command has one word (R61). -/
def Obligations.EncodeOfDecode : Prop :=
  ∀ (c : Command) (i : Instr), decode c = .ok i → i.wellFormed = true ∧ encode i = c

/-- Exactly 2076 words decode to a command, with some payload: the count at the end of R61, which the
spec marks as derived. -/
def Obligations.LegalWordsAre2076 : Prop :=
  ∃ words : List Word, words.Nodup ∧ words.length = 2076 ∧
    ∀ w : Word, w ∈ words ↔ ∃ (t : List Byte) (i : Instr), decode ⟨w, t⟩ = .ok i

/-- R54, R59, and the forms R56 to R58 make illegal: RSV not zero, an opcode 0x0 or 0xF, W = 7, W not
0 where the opcode has no width, W = 0 where the width must be 1 to 6, A not 0 where the opcode has no
byte operand, APPEND with a bit of A[7:1], a payload with an opcode other than ENCODE. -/
def Obligations.ReservedFormsAreIllegal : Prop :=
  ∀ c : Command,
    (c.word.extractLsb' 11 17 ≠ 0 ∨
      c.word.extractLsb' 28 4 = 0x0 ∨ c.word.extractLsb' 28 4 = 0xF ∨
      c.word.extractLsb' 8 3 = 7 ∨
      (c.word.extractLsb' 8 3 ≠ 0 ∧
        c.word.extractLsb' 28 4 ∉ ([0x6, 0x7, 0x8, 0x9] : List (BitVec 4))) ∨
      (c.word.extractLsb' 8 3 = 0 ∧
        c.word.extractLsb' 28 4 ∈ ([0x6, 0x7, 0x8] : List (BitVec 4))) ∨
      (c.word.extractLsb' 0 8 ≠ 0 ∧
        c.word.extractLsb' 28 4 ∉ ([0x1, 0x2, 0x3, 0x6] : List (BitVec 4))) ∨
      (c.word.extractLsb' 1 7 ≠ 0 ∧ c.word.extractLsb' 28 4 = 0x3) ∨
      (c.payload ≠ [] ∧ c.word.extractLsb' 28 4 ≠ 0x8)) →
    decode c = .error (.illegalCommand c.word)

/-- R66, on lines already read into a mnemonic and its operands (log 8): the word of each line with
its operands in range, no word where one is out of range, and what is assembled decodes (never an
IllegalCommand word). -/
def Obligations.AssemblerEmitsLegalCommands : Prop :=
  (∀ (line : AsmLine) (c : Command), assemble line = some c → ∃ i, decode c = .ok i) ∧
  (∀ n, assemble (.codeof n) =
    if n ≤ 255 then some ⟨0x10000000 + BitVec.ofNat 32 n, []⟩ else none) ∧
  (∀ n, assemble (.symof n) =
    if n ≤ 255 then some ⟨0x20000000 + BitVec.ofNat 32 n, []⟩ else none) ∧
  (∀ n, assemble (.append n) =
    if n ≤ 1 then some ⟨0x30000000 + BitVec.ofNat 32 n, []⟩ else none) ∧
  (∀ w n, assemble (.pack w n) = if 1 ≤ w ∧ w ≤ 6 ∧ n ≤ 255 then
    some ⟨0x60000000 + BitVec.ofNat 32 (2 ^ 8 * w) + BitVec.ofNat 32 n, []⟩ else none) ∧
  (∀ w, assemble (.unpack w) = if 1 ≤ w ∧ w ≤ 6 then
    some ⟨0x70000000 + BitVec.ofNat 32 (2 ^ 8 * w), []⟩ else none) ∧
  (∀ w t, assemble (.encode w t) = if 1 ≤ w ∧ w ≤ 6 then
    some ⟨0x80000000 + BitVec.ofNat 32 (2 ^ 8 * w), t⟩ else none) ∧
  (∀ w, assemble (.decode (some w)) = if w ≤ 6 then
    some ⟨0x90000000 + BitVec.ofNat 32 (2 ^ 8 * w), []⟩ else none) ∧
  assemble (.decode none) = some ⟨0x90000000, []⟩ ∧
  assemble .pop = some ⟨0x40000000, []⟩ ∧ assemble .length = some ⟨0x50000000, []⟩ ∧
  assemble .bitlen = some ⟨0xA0000000, []⟩ ∧ assemble .symwidth = some ⟨0xB0000000, []⟩ ∧
  assemble .symcount = some ⟨0xC0000000, []⟩ ∧ assemble .render = some ⟨0xD0000000, []⟩ ∧
  assemble .clear = some ⟨0xE0000000, []⟩

/-- R67, on lines already read (log 8): each pseudo-instruction assembles to the word of the command
it stands for. -/
def Obligations.PseudoInstructionsExpand : Prop :=
  (∀ n, assemble (expandPseudo (.codeOf n)) = assemble (.codeof n)) ∧
  (∀ n, assemble (expandPseudo (.symbolOf n)) = assemble (.symof n)) ∧
  (∀ n, assemble (expandPseudo (.appendBit n)) = assemble (.append n)) ∧
  assemble (expandPseudo .popBit) = some ⟨0x40000000, []⟩ ∧
  assemble (expandPseudo .toText) = some ⟨0x90000000, []⟩ ∧
  assemble (expandPseudo .bitstring) = some ⟨0xD0000000, []⟩ ∧
  assemble (expandPseudo .bitLength) = some ⟨0xA0000000, []⟩ ∧
  assemble (expandPseudo .symbolWidth) = some ⟨0xB0000000, []⟩ ∧
  assemble (expandPseudo .symbolCount) = some ⟨0xC0000000, []⟩ ∧
  assemble (expandPseudo .release) = some ⟨0xE0000000, []⟩

/-! ### The step -/

/-- R17: a command at the port that decodes is performed by `exec`, from the state in which the port
has moved past it. -/
def Obligations.StepRunsDecodedCommand : Prop :=
  ∀ (s : State) (c : Command) (rest : List HostEvent) (i : Instr),
    s.port = .command c :: rest → decode c = .ok i → step s = exec i { s with port := rest }

/-- R61, R100, R101: a command that does not decode is answered with IllegalCommand and its own
word, in every state and mode, and nothing else changes. -/
def Obligations.IllegalCommandAnswersItsWord : Prop :=
  ∀ (s : State) (c : Command) (rest : List HostEvent) (e : DecodeError),
    s.port = .command c :: rest → decode c = .error e →
    step s = .next { s with port := rest, responses := s.responses ++ [⟨0x6, c.word, []⟩] }

/-- R115: the reset event puts the state into the reset values, leaves ALPHA and CAP, and has no
response. -/
def Obligations.ResetEventRestoresResetValues : Prop :=
  ∀ (s : State) (rest : List HostEvent), s.port = .reset :: rest →
    step s = .next { s with buf := [], width := 0, mode := .uncon, port := rest }

/-- R112: between commands the block is idle and holds its state. That a step with nothing presented
is such an idle step is the model's (log 6). -/
def Obligations.IdleBlockHoldsItsState : Prop :=
  ∀ s : State, s.port = [] → step s = .next s

/-- R32: the reset values, for every configuration, and those of `State.reset`, whose configuration is
the device's. -/
def Obligations.ResetLeavesResetValues : Prop :=
  (∀ (cfg : Config) (events : List HostEvent),
    (State.afterReset cfg events).mode = .uncon ∧ (State.afterReset cfg events).width = 0 ∧
    (State.afterReset cfg events).len = 0 ∧ (State.afterReset cfg events).buf = [] ∧
    (State.afterReset cfg events).config = cfg) ∧
  State.reset.mode = .uncon ∧ State.reset.width = 0 ∧ State.reset.len = 0 ∧ State.reset.buf = [] ∧
  State.reset.config = Config.device

/-- R17, and R114, which the spec marks as derived from it: the step is total: no state faults, is
stuck or is refused. -/
def Obligations.EveryStepHasANextState : Prop :=
  ∀ s : State, ∃ t : State, step s = .next t

/-- R60: a command returns exactly one response. Its OUT is not empty only for a succeeding DECODE
or RENDER with LEN > 0. -/
def Obligations.OneResponsePerCommand : Prop :=
  ∀ (s : State) (c : Command) (rest : List HostEvent), s.port = .command c :: rest →
    ∃ (t : State) (r : Response), step s = .next t ∧ t.port = rest ∧
      t.responses = s.responses ++ [r] ∧
      (r.out ≠ [] → r.status = 0x0 ∧ 0 < s.len ∧
        (decode c = .ok .render ∨ ∃ w, decode c = .ok (.decode w)))

/-- R101: a failing command, an illegal one included, writes no state; its OUT is empty. -/
def Obligations.FailingCommandWritesNoState : Prop :=
  ∀ (s : State) (c : Command) (rest : List HostEvent), s.port = .command c :: rest →
    ∃ (t : State) (r : Response), step s = .next t ∧ t.responses = s.responses ++ [r] ∧
      (r.status ≠ 0x0 →
        r.out = [] ∧ t = { s with port := rest, responses := s.responses ++ [r] })

/-- R62: the statuses a response can have; 0x5 and 0xA to 0xF are never produced. -/
def Obligations.ReservedStatusesNeverProduced : Prop :=
  ∀ (s t : State), step s = .next t →
    t.responses = s.responses ∨ ∃ r : Response, t.responses = s.responses ++ [r] ∧
      r.status ∈ ([0x0, 0x1, 0x2, 0x3, 0x4, 0x6, 0x7, 0x8, 0x9] : List (BitVec 4))

/-- R99: which commands raise which error. -/
def Obligations.ErrorsRaisedOnlyByTheirCommands : Prop :=
  ∀ (i : Instr) (s t : State) (r : Response), Consistent s →
    exec i s = .next t → t.responses = s.responses ++ [r] →
    (r.status = 0x1 → (∃ x, i = .codeof x) ∨ ∃ a, i = .symof a) ∧
    (r.status = 0x2 → ∃ w x, i = .encode w x) ∧
    (r.status = 0x3 → i = .pop ∨ ∃ w, i = .unpack w) ∧
    (r.status = 0x4 → ∃ w, i = .decode w ∧ w ≠ 0) ∧
    r.status ≠ 0x5 ∧ r.status ≠ 0x6 ∧
    (r.status = 0x7 → (∃ b, i = .append b) ∨ (∃ w a, i = .pack w a) ∨ ∃ w x, i = .encode w x) ∧
    (r.status = 0x8 → s.mode = .encoded ∧ (i = .pop ∨ (∃ b, i = .append b) ∨
      (∃ w a, i = .pack w a) ∨ (∃ w, i = .unpack w) ∨ ∃ w x, i = .encode w x)) ∧
    (r.status = 0x9 → s.mode = .uncon ∧
      (i = .decode 0 ∨ i = .bitlen ∨ i = .symwidth ∨ i = .symcount))

/-- R102: the order of the checks. A word that does not decode is IllegalCommand whatever the state
is; a mode error comes before every operand, capacity and buffer check; ENCODE's invalid symbol
(the lowest index) comes before its capacity. -/
def Obligations.ErrorChecksInOrder : Prop :=
  (∀ (s : State) (c : Command) (rest : List HostEvent) (e : DecodeError),
    s.port = .command c :: rest → decode c = .error e →
    ∃ t r, step s = .next t ∧ t.responses = s.responses ++ [r] ∧ r.status = 0x6) ∧
  (∀ (s : State) (i : Instr), s.mode = .encoded →
    (i = .pop ∨ (∃ b, i = .append b) ∨ (∃ w a, i = .pack w a) ∨ (∃ w, i = .unpack w) ∨
      ∃ w x, i = .encode w x) →
    exec i s = .next { s with responses := s.responses ++ [⟨0x8, 0, []⟩] }) ∧
  (∀ (s : State) (i : Instr), s.mode = .uncon →
    (i = .decode 0 ∨ i = .bitlen ∨ i = .symwidth ∨ i = .symcount) →
    exec i s = .next { s with responses := s.responses ++ [⟨0x9, 0, []⟩] }) ∧
  (∀ (s : State) (w : BitVec 3) (pre post : List Byte) (y : Byte), s.mode = .uncon →
    (∀ z ∈ pre, valid s.config w.toNat z = true) → valid s.config w.toNat y = false →
    s.config.cap < (pre ++ y :: post).length * w.toNat →
    exec (.encode w (pre ++ y :: post)) s = .next { s with responses :=
      s.responses ++ [⟨0x2, BitVec.ofNat 32 (min pre.length (2 ^ 32 - 1)), []⟩] })

/-! ### Alphabet lookup -/

/-- R37: the reverse decoder answers the one code whose entry is the symbol, none where no entry is,
and exactly 64 of the 256 byte values hit. -/
def Obligations.ReverseDecoderInvertsTable : Prop :=
  ∀ cfg : Config, cfg.Admissible →
    (∀ (x : Byte) (c : Fin 64), codeOf cfg x = some c ↔ cfg.alpha.get c = x) ∧
    (∀ x : Byte, codeOf cfg x = none ↔ ∀ c : Fin 64, cfg.alpha.get c ≠ x) ∧
    ((List.range 256).filter fun n => (codeOf cfg (BitVec.ofNat 8 n)).isSome).length = 64

/-- R69: CODEOF. -/
def Obligations.CodeofAnswersCode : Prop :=
  ∀ (sym : Byte) (s : State), s.config.Admissible →
    (∀ c : Command, decode c = .ok (.codeof sym) ↔
      c = ⟨0x10000000 + sym.setWidth 32, []⟩) ∧
    (∀ c : Fin 64, s.config.alpha.get c = sym → exec (.codeof sym) s =
      .next { s with responses := s.responses ++ [⟨0x0, BitVec.ofNat 32 c.val, []⟩] }) ∧
    ((∀ c : Fin 64, s.config.alpha.get c ≠ sym) → exec (.codeof sym) s =
      .next { s with responses := s.responses ++ [⟨0x1, sym.setWidth 32, []⟩] })

/-- R70: SYMOF. -/
def Obligations.SymofAnswersSymbol : Prop :=
  ∀ (a : Byte) (s : State),
    (∀ c : Command, decode c = .ok (.symof a) ↔ c = ⟨0x20000000 + a.setWidth 32, []⟩) ∧
    (∀ h : a.toNat < 64, exec (.symof a) s = .next { s with responses :=
      s.responses ++ [⟨0x0, (s.config.alpha.get ⟨a.toNat, h⟩).setWidth 32, []⟩] }) ∧
    (64 ≤ a.toNat → exec (.symof a) s =
      .next { s with responses := s.responses ++ [⟨0x1, a.setWidth 32, []⟩] })

/-- R71: `valid(b, s)` is membership of the first 2^b entries, and so alphabet(1) and alphabet(2)
are the letters of §8. -/
def Obligations.ValidIsFirstEntries : Prop :=
  ∀ cfg : Config, cfg.Admissible →
    (∀ (b : Nat) (x : Byte), 1 ≤ b → b ≤ 6 →
      (valid cfg b x = true ↔ ∃ c : Fin 64, c.val < 2 ^ b ∧ cfg.alpha.get c = x) ∧
      (valid cfg b x = true ↔ x ∈ alphabet cfg b)) ∧
    (∀ x : Byte, valid cfg 1 x = true ↔ x ∈ ([0x41, 0x42] : List Byte)) ∧
    (∀ x : Byte, valid cfg 2 x = true ↔ x ∈ ([0x41, 0x42, 0x43, 0x44] : List Byte))

/-- R72, marked derived: the alphabets are strictly nested, and alphabet(b) has 2^b symbols. -/
def Obligations.AlphabetsAreNested : Prop :=
  ∀ cfg : Config, cfg.Admissible → ∀ b : Nat, 1 ≤ b → b ≤ 6 →
    ((List.range 256).filter fun n => valid cfg b (BitVec.ofNat 8 n)).length = 2 ^ b ∧
    ∀ b' : Nat, b < b' → b' ≤ 6 →
      (∀ x : Byte, valid cfg b x = true → valid cfg b' x = true) ∧
      ∃ x : Byte, valid cfg b' x = true ∧ valid cfg b x = false

/-- R73, marked derived: the two lookups are inverse to each other, and their answers depend on the table only. -/
def Obligations.LookupsAreInverse : Prop :=
  (∀ (s : State) (c : Fin 64), s.config.Admissible → ∃ (t : State) (x : Byte),
    exec (.symof (BitVec.ofNat 8 c.val)) s = .next t ∧ x = s.config.alpha.get c ∧
    t.responses = s.responses ++ [⟨0x0, x.setWidth 32, []⟩] ∧
    exec (.codeof x) t =
      .next { t with responses := t.responses ++ [⟨0x0, BitVec.ofNat 32 c.val, []⟩] }) ∧
  (∀ (s : State) (x : Byte) (c : Fin 64), s.config.Admissible → codeOf s.config x = some c →
    exec (.symof (BitVec.ofNat 8 c.val)) s =
      .next { s with responses := s.responses ++ [⟨0x0, x.setWidth 32, []⟩] }) ∧
  (∀ (s s' : State) (i : Instr), s.config = s'.config →
    ((∃ x, i = .codeof x) ∨ ∃ a, i = .symof a) →
    ∃ r : Response, exec i s = .next { s with responses := s.responses ++ [r] } ∧
      exec i s' = .next { s' with responses := s'.responses ++ [r] })

/-! ### Bit buffer -/

/-- R75: APPEND. A CapacityError whose value does not fit VALUE is in `CapacityErrorSaturates`. -/
def Obligations.AppendPutsBitAtTail : Prop :=
  ∀ (bit : Bool) (s : State),
    (∀ c : Command, decode c = .ok (.append bit) ↔
      c = ⟨0x30000000 + BitVec.ofNat 32 bit.toNat, []⟩) ∧
    (s.mode = .uncon → s.len + 1 ≤ s.config.cap → exec (.append bit) s = .next
      { s with buf := s.buf ++ [bit], responses := s.responses ++ [⟨0x0, 0, []⟩] }) ∧
    (s.mode = .encoded → exec (.append bit) s =
      .next { s with responses := s.responses ++ [⟨0x8, 0, []⟩] }) ∧
    (s.mode = .uncon → s.config.cap < s.len + 1 → s.len + 1 < 2 ^ 32 → exec (.append bit) s =
      .next { s with responses := s.responses ++ [⟨0x7, BitVec.ofNat 32 (s.len + 1), []⟩] })

/-- R76: POP. -/
def Obligations.PopTakesTailBit : Prop :=
  ∀ s : State,
    (∀ c : Command, decode c = .ok .pop ↔ c = ⟨0x40000000, []⟩) ∧
    (∀ (pre : List Bool) (v : Bool), s.mode = .uncon → s.buf = pre ++ [v] →
      exec .pop s = .next { s with
        buf := pre, responses := s.responses ++ [⟨0x0, BitVec.ofNat 32 v.toNat, []⟩] }) ∧
    (s.mode = .encoded → exec .pop s =
      .next { s with responses := s.responses ++ [⟨0x8, 0, []⟩] }) ∧
    (s.mode = .uncon → s.len = 0 → exec .pop s =
      .next { s with responses := s.responses ++ [⟨0x3, 0, []⟩] })

/-- R77: LENGTH, in both modes. Under the invariant VALUE is LEN itself. -/
def Obligations.LengthAnswersLen : Prop :=
  ∀ s : State, Consistent s →
    (∀ c : Command, decode c = .ok .length ↔ c = ⟨0x50000000, []⟩) ∧
    ∃ v : Word, v.toNat = s.len ∧
      exec .length s = .next { s with responses := s.responses ++ [⟨0x0, v, []⟩] }

/-- R78: RENDER, in both modes, index 0 first. -/
def Obligations.RenderEmitsBitsFromHead : Prop :=
  ∀ s : State,
    (∀ c : Command, decode c = .ok .render ↔ c = ⟨0xD0000000, []⟩) ∧
    ∃ out : List Byte, out.length = s.len ∧
      (∀ i : Nat, out[i]? = s.buf[i]?.map fun b => if b = false then 0x30 else 0x31) ∧
      exec .render s = .next { s with responses := s.responses ++ [⟨0x0, 0, out⟩] }

/-- R79, marked derived: in UNCON mode, appending bits and popping as many gives them back in reverse, and leaves
the buffer as it was. The run is of command words at the port. -/
def Obligations.PopsReverseAppends : Prop :=
  ∀ (s : State) (bits : List Bool), s.mode = .uncon → s.len + bits.length ≤ s.config.cap →
    steps (bits.length + bits.length)
      (present s
        (bits.map (fun b => .command ⟨0x30000000 + BitVec.ofNat 32 b.toNat, []⟩) ++
          List.replicate bits.length (.command ⟨0x40000000, []⟩))) =
      .next { s with
        port := []
        responses := s.responses ++ List.replicate bits.length ⟨0x0, 0, []⟩ ++
          bits.reverse.map fun b => ⟨0x0, BitVec.ofNat 32 b.toNat, []⟩ }

/-- R80, marked derived: a successful APPEND adds 1 to LEN, a successful POP takes 1; LENGTH, RENDER, the lookups
and failing commands leave it. -/
def Obligations.LengthChangesByOne : Prop :=
  ∀ (i : Instr) (s t : State) (r : Response),
    exec i s = .next t → t.responses = s.responses ++ [r] →
    (r.status ≠ 0x0 → t.len = s.len) ∧
    (∀ b, i = .append b → r.status = 0x0 → t.len = s.len + 1) ∧
    (i = .pop → r.status = 0x0 → t.len + 1 = s.len) ∧
    (i = .length ∨ i = .render ∨ (∃ x, i = .codeof x) ∨ (∃ a, i = .symof a) → t.len = s.len)

/-! ### Packer -/

/-- R82: PACK: bit i of the operand lands at index LEN + i, for i below w; its other bits are
ignored. A CapacityError whose value does not fit VALUE is in `CapacityErrorSaturates`. -/
def Obligations.PackAppendsLowBits : Prop :=
  ∀ (w : BitVec 3) (a : Byte) (s : State), legalWidth w = true →
    (∀ c : Command, decode c = .ok (.pack w a) ↔
      c = ⟨0x60000000 + (w.setWidth 32 <<< 8) + a.setWidth 32, []⟩) ∧
    (s.mode = .uncon → s.len + w.toNat ≤ s.config.cap → ∃ bits : List Bool,
      bits.length = w.toNat ∧ (∀ i, i < w.toNat → bits[i]? = some (a.getLsbD i)) ∧
      exec (.pack w a) s = .next
        { s with buf := s.buf ++ bits, responses := s.responses ++ [⟨0x0, 0, []⟩] }) ∧
    (s.mode = .encoded → exec (.pack w a) s =
      .next { s with responses := s.responses ++ [⟨0x8, 0, []⟩] }) ∧
    (s.mode = .uncon → s.config.cap < s.len + w.toNat → s.len + w.toNat < 2 ^ 32 →
      exec (.pack w a) s = .next { s with responses :=
        s.responses ++ [⟨0x7, BitVec.ofNat 32 (s.len + w.toNat), []⟩] })

/-- R100 for the CapacityError of APPEND and PACK where the length they would have produced does not
fit 32 bits: VALUE is 2^32 - 1. R75 and R82 write the unsaturated length, so that R100 applies to them
is the model's reading (log 5). -/
def Obligations.CapacityErrorSaturates : Prop :=
  (∀ (bit : Bool) (s : State), s.mode = .uncon → s.config.cap < s.len + 1 → 2 ^ 32 ≤ s.len + 1 →
    exec (.append bit) s =
      .next { s with responses := s.responses ++ [⟨0x7, 0xFFFFFFFF, []⟩] }) ∧
  (∀ (w : BitVec 3) (a : Byte) (s : State), s.mode = .uncon → s.config.cap < s.len + w.toNat →
    2 ^ 32 ≤ s.len + w.toNat →
    exec (.pack w a) s =
      .next { s with responses := s.responses ++ [⟨0x7, 0xFFFFFFFF, []⟩] })

/-- A corner case of R82 the spec marks as derived: PACK w, a leaves the buffer the APPENDs of its w low bits leave. -/
def Obligations.PackEqualsAppends : Prop :=
  ∀ (w : BitVec 3) (a : Byte) (s : State), legalWidth w = true → s.mode = .uncon →
    s.len + w.toNat ≤ s.config.cap → ∃ t t' : State, exec (.pack w a) s = .next t ∧
      steps w.toNat (present s ((List.range w.toNat).map fun i =>
        .command ⟨0x30000000 + BitVec.ofNat 32 (a.getLsbD i).toNat, []⟩)) = .next t' ∧
      t'.buf = t.buf ∧ t'.mode = t.mode ∧ t'.width = t.width ∧ t'.config = t.config

/-- R41 and R83, the parts they mark as derived: the value of the last w bits is the sum in which the
bit at index LEN - w + i has weight 2^i; it is below 2^w, and so a table code. -/
def Obligations.UnpackvalIsWeightedSum : Prop :=
  ∀ (w : Nat) (B : List Bool), 1 ≤ w → w ≤ 6 → w ≤ B.length →
    unpackval w B =
      ∑ i ∈ Finset.range w, (B.getD (B.length - w + i) false).toNat * 2 ^ i ∧
    unpackval w B < 2 ^ w ∧ 2 ^ w ≤ 64

/-- R84: UNPACK: the last w bits leave the buffer, and VALUE is the loop of R83 over them, from the
tail. -/
def Obligations.UnpackTakesTailCode : Prop :=
  ∀ (w : BitVec 3) (s : State), legalWidth w = true →
    (∀ c : Command, decode c = .ok (.unpack w) ↔
      c = ⟨0x70000000 + (w.setWidth 32 <<< 8), []⟩) ∧
    (∀ pre bits : List Bool, s.mode = .uncon → s.buf = pre ++ bits → bits.length = w.toNat →
      exec (.unpack w) s = .next { s with
        buf := pre
        responses := s.responses ++ [⟨0x0, BitVec.ofNat 32
          (bits.reverse.foldl (fun code b => code <<< 1 ||| b.toNat) 0), []⟩] }) ∧
    (s.mode = .encoded → exec (.unpack w) s =
      .next { s with responses := s.responses ++ [⟨0x8, 0, []⟩] }) ∧
    (s.mode = .uncon → s.len < w.toNat → exec (.unpack w) s =
      .next { s with responses := s.responses ++ [⟨0x3, BitVec.ofNat 32 s.len, []⟩] })

/-- A corner case of R84 the spec marks as derived: UNPACK w leaves the buffer w POPs leave, and its value is their answers
accumulated, the first as the most significant bit. -/
def Obligations.UnpackEqualsPops : Prop :=
  ∀ (w : BitVec 3) (s : State), legalWidth w = true → s.mode = .uncon → w.toNat ≤ s.len →
    ∃ (t t' : State) (v : Word) (bits : List Bool),
      exec (.unpack w) s = .next t ∧ t.responses = s.responses ++ [⟨0x0, v, []⟩] ∧
      steps w.toNat (present s (List.replicate w.toNat (.command ⟨0x40000000, []⟩))) = .next t' ∧
      t'.responses = s.responses ++ bits.map (fun b => ⟨0x0, BitVec.ofNat 32 b.toNat, []⟩) ∧
      bits.length = w.toNat ∧ v.toNat = bits.foldl (fun code b => 2 * code + b.toNat) 0 ∧
      t'.buf = t.buf ∧ t'.mode = t.mode ∧ t'.width = t.width ∧ t'.config = t.config

/-- R85, marked derived: PACK then UNPACK gives the low bits back and leaves the buffer; UNPACK then PACK of its
value leaves the buffer. -/
def Obligations.PackAndUnpackAreInverse : Prop :=
  ∀ (w : BitVec 3) (a : Byte) (s : State), legalWidth w = true → s.mode = .uncon →
    (s.len + w.toNat ≤ s.config.cap → ∃ t : State, exec (.pack w a) s = .next t ∧
      exec (.unpack w) t = .next { s with responses := s.responses ++
        [⟨0x0, 0, []⟩, ⟨0x0, BitVec.ofNat 32 (a.toNat % 2 ^ w.toNat), []⟩] }) ∧
    (w.toNat ≤ s.len → s.len ≤ s.config.cap → ∃ (t : State) (c : Byte),
      exec (.unpack w) s = .next t ∧
      t.responses = s.responses ++ [⟨0x0, c.setWidth 32, []⟩] ∧
      exec (.pack w c) t = .next { s with responses :=
        s.responses ++ [⟨0x0, c.setWidth 32, []⟩, ⟨0x0, 0, []⟩] })

/-! ### Codec -/

/-- R86: `enc` of the text whose symbols have the given codes packs the codes in reverse order,
each least significant bit first. -/
def Obligations.EncPacksReversedText : Prop :=
  ∀ (cfg : Config) (w : Nat) (codes : List (Fin 64)), cfg.Admissible → 1 ≤ w → w ≤ 6 →
    (∀ c ∈ codes, c.val < 2 ^ w) →
    enc cfg w (codes.map fun c => cfg.alpha.get c) =
      (codes.reverse.map fun c => (List.range w).map fun i => c.val.testBit i).flatten ∧
    (enc cfg w (codes.map fun c => cfg.alpha.get c)).length = codes.length * w

/-- R87: ENCODE. What `enc` is, statement `EncPacksReversedText` says. -/
def Obligations.EncodeBuildsInstance : Prop :=
  ∀ (w : BitVec 3) (x : List Byte) (s : State), legalWidth w = true →
    (∀ c : Command, decode c = .ok (.encode w x) ↔
      c = ⟨0x80000000 + (w.setWidth 32 <<< 8), x⟩) ∧
    (s.mode = .uncon → (∀ y ∈ x, valid s.config w.toNat y = true) →
      x.length * w.toNat ≤ s.config.cap →
      (enc s.config w.toNat x).length = x.length * w.toNat ∧
      exec (.encode w x) s = .next { s with
        buf := enc s.config w.toNat x, width := w, mode := .encoded
        responses := s.responses ++ [⟨0x0, 0, []⟩] }) ∧
    (s.mode = .encoded → exec (.encode w x) s =
      .next { s with responses := s.responses ++ [⟨0x8, 0, []⟩] }) ∧
    (∀ (pre post : List Byte) (y : Byte), s.mode = .uncon → x = pre ++ y :: post →
      (∀ z ∈ pre, valid s.config w.toNat z = true) → valid s.config w.toNat y = false →
      exec (.encode w x) s = .next { s with responses :=
        s.responses ++ [⟨0x2, BitVec.ofNat 32 (min pre.length (2 ^ 32 - 1)), []⟩] }) ∧
    (s.mode = .uncon → (∀ y ∈ x, valid s.config w.toNat y = true) →
      s.config.cap < x.length * w.toNat →
      exec (.encode w x) s = .next { s with responses :=
        s.responses ++ [⟨0x7, BitVec.ofNat 32 (min (x.length * w.toNat) (2 ^ 32 - 1)), []⟩] })

/-- R88, marked derived: the layout after ENCODE: cell m*w + i is bit i of the code of text symbol L - 1 - m. -/
def Obligations.EncodeLayout : Prop :=
  ∀ (w : BitVec 3) (x : List Byte) (s : State), legalWidth w = true → s.config.Admissible →
    s.mode = .uncon → (∀ y ∈ x, valid s.config w.toNat y = true) →
    x.length * w.toNat ≤ s.config.cap → ∃ t : State, exec (.encode w x) s = .next t ∧
      t.len = x.length * w.toNat ∧
      ∀ m i : Nat, m < x.length → i < w.toNat → ∃ c : Fin 64,
        x[x.length - 1 - m]? = some (s.config.alpha.get c) ∧
        t.buf[m * w.toNat + i]? = some (c.val.testBit i)

/-- The closed form of `dec` in R89, which the spec marks as derived. -/
def Obligations.DecodedTextInClosedForm : Prop :=
  ∀ (cfg : Config) (w : Nat) (B : List Bool), 1 ≤ w → w ≤ 6 → B.length % w = 0 →
    (dec cfg w B).length = B.length / w ∧
    ∀ k, k < B.length / w → ∃ c : Fin 64, (dec cfg w B)[k]? = some (cfg.alpha.get c) ∧
      c.val = ∑ i ∈ Finset.range w,
        (B.getD ((B.length / w - 1 - k) * w + i) false).toNat * 2 ^ i

/-- R90: DECODE. With selector 0 and an instance the length check cannot fail, under the
invariant. -/
def Obligations.DecodeAnswersText : Prop :=
  ∀ (wsel : BitVec 3) (s : State), legalSelector wsel = true →
    (∀ c : Command, decode c = .ok (.decode wsel) ↔
      c = ⟨0x90000000 + (wsel.setWidth 32 <<< 8), []⟩) ∧
    (wsel = 0 → s.mode = .uncon → exec (.decode wsel) s =
      .next { s with responses := s.responses ++ [⟨0x9, 0, []⟩] }) ∧
    (wsel = 0 → s.mode = .encoded → Consistent s → exec (.decode wsel) s = .next { s with responses :=
      s.responses ++ [⟨0x0, 0, dec s.config s.width.toNat s.buf⟩] }) ∧
    (wsel ≠ 0 → s.len % wsel.toNat = 0 → exec (.decode wsel) s = .next { s with responses :=
      s.responses ++ [⟨0x0, 0, dec s.config wsel.toNat s.buf⟩] }) ∧
    (wsel ≠ 0 → s.len % wsel.toNat ≠ 0 → exec (.decode wsel) s = .next { s with responses :=
      s.responses ++ [⟨0x4, BitVec.ofNat 32 s.len, []⟩] })

/-- R91: BITLEN. -/
def Obligations.BitlenAnswersLen : Prop :=
  ∀ s : State, Consistent s →
    (∀ c : Command, decode c = .ok .bitlen ↔ c = ⟨0xA0000000, []⟩) ∧
    (s.mode = .encoded → ∃ v : Word, v.toNat = s.len ∧
      exec .bitlen s = .next { s with responses := s.responses ++ [⟨0x0, v, []⟩] }) ∧
    (s.mode = .uncon →
      exec .bitlen s = .next { s with responses := s.responses ++ [⟨0x9, 0, []⟩] })

/-- R92: SYMWIDTH. -/
def Obligations.SymwidthAnswersWidth : Prop :=
  ∀ s : State,
    (∀ c : Command, decode c = .ok .symwidth ↔ c = ⟨0xB0000000, []⟩) ∧
    (s.mode = .encoded → exec .symwidth s =
      .next { s with responses := s.responses ++ [⟨0x0, s.width.setWidth 32, []⟩] }) ∧
    (s.mode = .uncon →
      exec .symwidth s = .next { s with responses := s.responses ++ [⟨0x9, 0, []⟩] })

/-- R93: SYMCOUNT. The division is exact, under the invariant. -/
def Obligations.SymcountAnswersSymbols : Prop :=
  ∀ s : State, Consistent s →
    (∀ c : Command, decode c = .ok .symcount ↔ c = ⟨0xC0000000, []⟩) ∧
    (s.mode = .encoded → ∃ v : Word, v.toNat = s.len / s.width.toNat ∧
      v.toNat * s.width.toNat = s.len ∧
      exec .symcount s = .next { s with responses := s.responses ++ [⟨0x0, v, []⟩] }) ∧
    (s.mode = .uncon →
      exec .symcount s = .next { s with responses := s.responses ++ [⟨0x9, 0, []⟩] })

/-- R94: CLEAR, in both modes. -/
def Obligations.ClearEndsInstance : Prop :=
  ∀ s : State,
    (∀ c : Command, decode c = .ok .clear ↔ c = ⟨0xE0000000, []⟩) ∧
    exec .clear s = .next { s with
      buf := [], width := 0, mode := .uncon, responses := s.responses ++ [⟨0x0, 0, []⟩] }

/-- R95, marked derived: the length law, as a run: ENCODE, BITLEN, SYMCOUNT. -/
def Obligations.EncodedLengthIsTextTimesWidth : Prop :=
  ∀ (w : BitVec 3) (x : List Byte) (s : State), legalWidth w = true → s.config.Admissible →
    s.mode = .uncon → (∀ y ∈ x, valid s.config w.toNat y = true) →
    x.length * w.toNat ≤ s.config.cap →
    ∃ (t : State) (v n : Word),
      steps 3 (present s [.command ⟨0x80000000 + (w.setWidth 32 <<< 8), x⟩,
        .command ⟨0xA0000000, []⟩, .command ⟨0xC0000000, []⟩]) = .next t ∧
      t.responses = s.responses ++ [⟨0x0, 0, []⟩, ⟨0x0, v, []⟩, ⟨0x0, n, []⟩] ∧
      t.len = x.length * w.toNat ∧ v.toNat = x.length * w.toNat ∧ n.toNat = x.length

/-- R96, marked derived: the round-trip law, as a run of the block from any state in UNCON mode: ENCODE of a valid
text, then DECODE at selector 0 and at the width, each answer the text. -/
def Obligations.DecodeOfEncodedTextIsText : Prop :=
  ∀ (w : BitVec 3) (x : List Byte) (s : State), legalWidth w = true → s.config.Admissible →
    s.mode = .uncon → (∀ y ∈ x, valid s.config w.toNat y = true) →
    x.length * w.toNat ≤ s.config.cap →
    ∃ t : State,
      steps 3 (present s [.command ⟨0x80000000 + (w.setWidth 32 <<< 8), x⟩,
        .command ⟨0x90000000, []⟩,
        .command ⟨0x90000000 + (w.setWidth 32 <<< 8), []⟩]) = .next t ∧
      t.responses = s.responses ++ [⟨0x0, 0, []⟩, ⟨0x0, 0, x⟩, ⟨0x0, 0, x⟩]

/-- R97, marked derived: the empty text, as a run: ENCODE, DECODE, BITLEN, SYMCOUNT. -/
def Obligations.EmptyTextEncodesToNothing : Prop :=
  ∀ (w : BitVec 3) (s : State), legalWidth w = true → s.mode = .uncon →
    steps 4 (present s [.command ⟨0x80000000 + (w.setWidth 32 <<< 8), []⟩,
      .command ⟨0x90000000, []⟩, .command ⟨0xA0000000, []⟩, .command ⟨0xC0000000, []⟩]) =
      .next { s with
        buf := [], width := w, mode := .encoded, port := []
        responses := s.responses ++
          [⟨0x0, 0, []⟩, ⟨0x0, 0, []⟩, ⟨0x0, 0, []⟩, ⟨0x0, 0, []⟩] }

/-- R98: the mode transitions: these are all of them. -/
def Obligations.ModeTransitionsAreThese : Prop :=
  (∀ (i : Instr) (s t : State) (r : Response),
    exec i s = .next t → t.responses = s.responses ++ [r] →
    (∀ w x, i = .encode w x → s.mode = .uncon → r.status = 0x0 →
      t.mode = .encoded ∧ t.width = w) ∧
    (∀ w x, i = .encode w x → s.mode = .uncon → r.status ≠ 0x0 → t.mode = .uncon) ∧
    (i = .clear → t.mode = .uncon ∧ r.status = 0x0) ∧
    (s.mode = .encoded → (i = .pop ∨ (∃ b, i = .append b) ∨ (∃ w a, i = .pack w a) ∨
      (∃ w, i = .unpack w) ∨ ∃ w x, i = .encode w x) → r.status = 0x8 ∧ t.mode = .encoded) ∧
    (i ≠ .clear → (∀ w x, i ≠ .encode w x) → t.mode = s.mode ∧ t.width = s.width)) ∧
  (∀ (s t : State) (rest : List HostEvent), s.port = .reset :: rest → step s = .next t →
    t.mode = .uncon)

/-! ### Frames and the whole machine -/

/-- R46: the commands without a side effect: CODEOF, SYMOF, LENGTH, RENDER, DECODE, BITLEN,
SYMWIDTH, SYMCOUNT. Nothing but the observation differs after one, and the same command again gives
the same response. -/
def Obligations.ReadCommandsChangeNothing : Prop :=
  ∀ (i : Instr) (s : State),
    ((∃ x, i = .codeof x) ∨ (∃ a, i = .symof a) ∨ i = .length ∨ i = .render ∨
      (∃ w, i = .decode w) ∨ i = .bitlen ∨ i = .symwidth ∨ i = .symcount) →
    ∃ (t : State) (r : Response), exec i s = .next t ∧ Answered s r t ∧
      ∃ t' : State, exec i t = .next t' ∧ Answered t r t'

/-- R38: APPEND, POP, PACK and UNPACK reach the buffer at the tail only: one of the buffers before
and after is an initial part of the other. WIDTH, MODE, the configuration and the port stay. -/
def Obligations.RawCommandsReachOnlyTheTail : Prop :=
  ∀ (i : Instr) (s t : State),
    (i = .pop ∨ (∃ b, i = .append b) ∨ (∃ w a, i = .pack w a) ∨ ∃ w, i = .unpack w) →
    exec i s = .next t →
    ∃ (b : List Bool) (r : Response),
      t = { s with buf := b, responses := s.responses ++ [r] } ∧ (b <+: s.buf ∨ s.buf <+: b)

/-- R120, marked derived: while an instance exists, a step that changes the instance, its width or the mode is the
reset event or CLEAR. -/
def Obligations.InstanceIsImmutable : Prop :=
  ∀ s t : State, s.mode = .encoded → step s = .next t →
    (∃ rest, s.port = .reset :: rest) ∨
    (∃ c rest, s.port = .command c :: rest ∧ decode c = .ok .clear) ∨
    (t.buf = s.buf ∧ t.width = s.width ∧ t.mode = s.mode ∧ t.config = s.config)

/-- R20, R117: no step changes ALPHA or CAP. -/
def Obligations.ConfigurationNeverChanges : Prop :=
  ∀ s t : State, step s = .next t → t.config = s.config

/-- R33: no command reads the responses back. That they are kept in a field at all is the model's
(log 4): with other responses in the state, a command answers
the same and leaves everything else the same. -/
def Obligations.ResponsesAreNeverReadBack : Prop :=
  ∀ (i : Instr) (s : State) (rs : List Response), ∃ (t : State) (r : Response),
    exec i s = .next { t with responses := s.responses ++ [r] } ∧
    exec i { s with responses := rs } = .next { t with responses := rs ++ [r] }

/-- R119, marked derived: a command sees the effects of the one before it: POP the bit just appended; RENDER and
DECODE the new instance; SYMWIDTH that CLEAR has ended it. -/
def Obligations.CommandsSeeEarlierEffects : Prop :=
  (∀ (s : State) (b : Bool), s.mode = .uncon → s.len < s.config.cap →
    steps 2 (present s [.command ⟨0x30000000 + BitVec.ofNat 32 b.toNat, []⟩,
      .command ⟨0x40000000, []⟩]) = .next { s with
        port := []
        responses := s.responses ++ [⟨0x0, 0, []⟩, ⟨0x0, BitVec.ofNat 32 b.toNat, []⟩] }) ∧
  (∀ (s : State) (w : BitVec 3) (x : List Byte), s.config.Admissible → legalWidth w = true →
    s.mode = .uncon → (∀ y ∈ x, valid s.config w.toNat y = true) →
    x.length * w.toNat ≤ s.config.cap → ∃ t : State,
    steps 3 (present s [.command ⟨0x80000000 + (w.setWidth 32 <<< 8), x⟩,
      .command ⟨0xD0000000, []⟩, .command ⟨0x90000000, []⟩]) = .next t ∧
    t.responses = s.responses ++ [⟨0x0, 0, []⟩,
      ⟨0x0, 0, (enc s.config w.toNat x).map fun b => if b then 0x31 else 0x30⟩, ⟨0x0, 0, x⟩]) ∧
  (∀ s : State, steps 2 (present s [.command ⟨0xE0000000, []⟩, .command ⟨0xB0000000, []⟩]) =
    .next { s with
      buf := [], width := 0, mode := .uncon, port := []
      responses := s.responses ++ [⟨0x0, 0, []⟩, ⟨0x9, 0, []⟩] })

/-- Every step keeps the invariant of 10_state.md §3: from every state that meets it, whatever the
host presents. -/
def Obligations.EveryStepKeepsInvariant : Prop :=
  ∀ s t : State, Consistent s → step s = .next t → Consistent t

/-- The reset state meets the invariant, for the device and for every admissible configuration. -/
def Obligations.InvariantHoldsAtReset : Prop :=
  Consistent State.reset ∧ ∀ (cfg : Config) (events : List HostEvent), cfg.Admissible →
    Consistent (State.afterReset cfg events)

/-- R26, R27, R28, marked derived, of every reachable state. -/
def Obligations.ReachableStatesAreConsistent : Prop :=
  ∀ s : State, Reachable s →
    s.len ≤ s.config.cap ∧
    (s.width = 0 ↔ s.mode = .uncon) ∧
    (s.mode = .encoded → s.len % s.width.toNat = 0 ∧ ∃ x : List Byte,
      (∀ y ∈ x, valid s.config s.width.toNat y = true) ∧
      s.buf = enc s.config s.width.toNat x ∧ s.len / s.width.toNat = x.length)
end

