-- ==== Sys2Proof/Laws/Config.lean ====
section
/-! SUPPORT. The device's configuration meets the constraints of 00_scope.md R9 and R10, whatever its
open entries and its capacity are. -/

namespace Sys2Proof

/-- The entry of a code above 3 is one of the open entries. -/
theorem Config.device_get {c : Nat} (h : c < 60) (h' : c + 4 < 64) :
    Config.device.alpha.get ⟨c + 4, h'⟩ = Config.openEntries.entries.val.get ⟨c, h⟩ := by
  change ((0x41 : Byte) :: 0x42 :: 0x43 :: 0x44 ::
    Config.openEntries.entries.val.toList)[c + 4]'(by simp; omega) = _
  simp [Vector.get]

/-- The letters are not among the open entries. -/
theorem Config.openEntries_ne (i : Fin 60) {b : Byte} (hb : b ∈ [(0x41 : Byte), 0x42, 0x43, 0x44]) :
    Config.openEntries.entries.val.get i ≠ b := by
  have := (Config.openEntries.entries.property.1 i).2.2
  intro h
  rw [h] at this
  fin_cases hb <;> simp at this

/-- A code is one of the four of §8 or an open one. -/
theorem Config.code_cases (c : Fin 64) :
    (c.val < 4) ∨ ∃ (i : Nat) (h : i < 60), c = ⟨i + 4, by omega⟩ := by
  by_cases h : c.val < 4
  · exact .inl h
  · exact .inr ⟨c.val - 4, by omega, Fin.ext (by simp; omega)⟩

/-- The first four entries are the letters. -/
theorem Config.device_letter {c : Fin 64} (h : c.val < 4) :
    (Config.device.alpha.get c).toNat = 0x41 + c.val ∧
      Config.device.alpha.get c ∈ [(0x41 : Byte), 0x42, 0x43, 0x44] := by
  obtain ⟨c, hc⟩ := c
  have : c = 0 ∨ c = 1 ∨ c = 2 ∨ c = 3 := by simp at h; omega
  rcases this with rfl | rfl | rfl | rfl
  · exact ⟨rfl, .head _⟩
  · exact ⟨rfl, .tail _ (.head _)⟩
  · exact ⟨rfl, .tail _ (.tail _ (.head _))⟩
  · exact ⟨rfl, .tail _ (.tail _ (.tail _ (.head _)))⟩

theorem Config.device_admissible : Config.device.Admissible where
  injective c d h := by
    rcases Config.code_cases c with hc | ⟨i, hi, rfl⟩ <;>
      rcases Config.code_cases d with hd | ⟨j, hj, rfl⟩
    · have := (Config.device_letter hc).1
      rw [h, (Config.device_letter hd).1] at this
      exact Fin.ext (by omega)
    · rw [Config.device_get hj] at h
      exact absurd h.symm (Config.openEntries_ne _ (Config.device_letter hc).2)
    · rw [Config.device_get hi] at h
      exact absurd h (Config.openEntries_ne _ (Config.device_letter hd).2)
    · rw [Config.device_get hi, Config.device_get hj] at h
      have := Config.openEntries.entries.property.2 _ _ h
      simpa using this
  letters := ⟨rfl, rfl, rfl, rfl⟩
  printable c := by
    rcases Config.code_cases c with hc | ⟨i, hi, rfl⟩
    · have := (Config.device_letter hc).1
      omega
    · rw [Config.device_get hi]
      exact ⟨(Config.openEntries.entries.property.1 _).1, (Config.openEntries.entries.property.1 _).2.1⟩
  cap_le := by
    have : Config.device.cap = Config.openCap.toNat := rfl
    omega

end Sys2Proof
end

