-- ==== Sys2Proof/Laws/Decode.lean ====
section
/-! SUPPORT. The fields of a command word: each field of a word put together is the part it was put
together from, and a word without reserved bits is its fields put together. -/

namespace Sys2Proof

@[simp] theorem opField_commandWord (op : BitVec 4) (w : BitVec 3) (a : Byte) :
    opField (commandWord op w a) = op := by
  ext i hi
  simp only [opField, commandWord, BitVec.getElem_extractLsb', BitVec.getLsbD_append]
  grind

@[simp] theorem rsvField_commandWord (op : BitVec 4) (w : BitVec 3) (a : Byte) :
    rsvField (commandWord op w a) = 0 := by
  ext i hi
  simp only [rsvField, commandWord, BitVec.getElem_extractLsb', BitVec.getLsbD_append]
  grind

@[simp] theorem wField_commandWord (op : BitVec 4) (w : BitVec 3) (a : Byte) :
    wField (commandWord op w a) = w := by
  ext i hi
  simp only [wField, commandWord, BitVec.getElem_extractLsb', BitVec.getLsbD_append]
  grind

@[simp] theorem aField_commandWord (op : BitVec 4) (w : BitVec 3) (a : Byte) :
    aField (commandWord op w a) = a := by
  ext i hi
  simp only [aField, commandWord, BitVec.getElem_extractLsb', BitVec.getLsbD_append]
  grind

/-- A word whose reserved field is zero is its own OP, W and A put together. -/
theorem commandWord_fields {word : Word} (h : rsvField word = 0) :
    commandWord (opField word) (wField word) (aField word) = word := by
  have hr : ∀ j, j < 17 → word.getLsbD (11 + j) = false := fun j hj => by
    have := congrArg (fun x => x.getLsbD j) h
    simpa [rsvField, BitVec.getLsbD_extractLsb', hj] using this
  ext i hi
  simp only [commandWord, opField, wField, aField, ← BitVec.getLsbD_eq_getElem,
    BitVec.getLsbD_append, BitVec.getLsbD_extractLsb']
  by_cases h8 : i < 8
  · simp [h8]
  · by_cases h11 : i - 8 < 3
    · have : 8 + (i - 8) = i := by omega
      simp [h8, h11, this]
    · by_cases h28 : i - 8 - 3 < 17
      · have := hr (i - 8 - 3) h28
        have e : 11 + (i - 8 - 3) = i := by omega
        simp_all
      · have e : 28 + (i - 8 - 3 - 17) = i := by omega
        have : i - 8 - 3 - 17 < 4 := by omega
        simp [h8, h11, h28, this, e]

theorem checked_eq_ok {check : Bool} {cmd : Word} {i j : Instr} :
    checked check cmd i = .ok j ↔ check = true ∧ i = j := by
  cases check <;> simp [checked]

theorem checked_eq_error {check : Bool} {cmd : Word} {i : Instr} {e : DecodeError} :
    checked check cmd i = .error e ↔ check = false ∧ .illegalCommand cmd = e := by
  cases check <;> simp [checked]

end Sys2Proof
end

