-- ==== Sys2Proof/Laws/Ops.lean ====
section
/-! SUPPORT. What each shared operation over the table and the buffer does. -/

namespace Sys2Proof.Machine

/-! ### Lookups -/

/-- Whatever the table holds, a code the reverse decoder answers has the symbol as its entry. -/
theorem codeOf_sound {cfg : Config} {x : Byte} {c : Fin 64} (h : codeOf cfg x = some c) :
    cfg.alpha.get c = x := by
  have := List.find?_some h
  simpa [romRead] using this

theorem codeOf_eq_none {cfg : Config} {x : Byte} :
    codeOf cfg x = none ↔ ∀ c, cfg.alpha.get c ≠ x := by
  simp [codeOf, romRead, List.find?_eq_none]

/-- With no symbol twice in the table, the reverse decoder inverts the ROM. -/
theorem codeOf_get {cfg : Config} (h : cfg.Admissible) (c : Fin 64) :
    codeOf cfg (cfg.alpha.get c) = some c := by
  cases hc : codeOf cfg (cfg.alpha.get c) with
  | none => exact absurd rfl (codeOf_eq_none.mp hc c)
  | some d => rw [h.injective d c (codeOf_sound hc)]

theorem selectEntry_of_lt {a : Nat} (h : a < 64) : selectEntry a = some ⟨a, h⟩ := by
  simp [selectEntry, h]

theorem selectEntry_of_le {a : Nat} (h : 64 ≤ a) : selectEntry a = none := by
  simp [selectEntry]; omega

/-- A valid symbol has a code below 2^b. -/
theorem valid_iff_codeOf {cfg : Config} {b : Nat} {x : Byte} :
    valid cfg b x = true ↔ ∃ c, codeOf cfg x = some c ∧ c.val < 2 ^ b := by
  unfold valid
  cases codeOf cfg x <;> simp

/-! ### Packing and unpacking -/

@[simp] theorem packbits_length (w c : Nat) : (packbits w c).length = w := by simp [packbits]

theorem packbits_getElem? {w i : Nat} (c : Nat) (h : i < w) :
    (packbits w c)[i]? = some (c.testBit i) := by
  simp [packbits, h]

theorem shiftIn_eq (code : Nat) (bit : Bool) : shiftIn code bit = 2 * code + bit.toNat := by
  have h : code <<< 1 = 2 ^ 1 * code := by simp [Nat.shiftLeft_eq, Nat.mul_comm]
  rw [shiftIn, h, ← Nat.two_pow_add_eq_or_of_lt (by cases bit <;> simp)]

/-- Only the bits taken matter. -/
theorem unpackval_append {w : Nat} {bits : List Bool} (pre : List Bool) (h : bits.length = w) :
    unpackval w (pre ++ bits) = unpackval w bits := by
  have hr : bits.reverse.take w = bits.reverse := List.take_of_length_le (by simp [h])
  simp only [unpackval, List.reverse_append, List.take_append, List.length_reverse, h, Nat.sub_self,
    List.take_zero, List.append_nil]

theorem unpackval_zero (B : List Bool) : unpackval 0 B = 0 := by simp [unpackval]

@[simp] theorem dropTail_append {w : Nat} {bits : List Bool} (pre : List Bool)
    (h : bits.length = w) : dropTail w (pre ++ bits) = pre := by
  simp [dropTail, h]

theorem dropTail_length (w : Nat) (B : List Bool) : (dropTail w B).length = B.length - w := by
  simp [dropTail]

theorem dropTail_prefix (w : Nat) (B : List Bool) : dropTail w B <+: B := List.take_prefix _ _

/-- A buffer of at least `w` bits is what `dropTail` leaves and the `w` bits it takes. -/
theorem exists_append_of_le {w : Nat} {B : List Bool} (h : w ≤ B.length) :
    ∃ pre bits, B = pre ++ bits ∧ bits.length = w :=
  ⟨B.take (B.length - w), B.drop (B.length - w), (List.take_append_drop _ _).symm, by simp; omega⟩

/-! ### The codec's functions -/

@[simp] theorem enc_nil (cfg : Config) (w : Nat) : enc cfg w [] = [] := rfl

/-- The first symbol of a text is packed last. -/
theorem enc_cons (cfg : Config) (w : Nat) (x : Byte) (t : List Byte) :
    enc cfg w (x :: t) = enc cfg w t ++ symbolBits cfg w x := by
  simp [enc]

theorem symbolBits_of_codeOf {cfg : Config} {x : Byte} {c : Fin 64} (w : Nat)
    (h : codeOf cfg x = some c) : symbolBits cfg w x = packbits w (lowBits w c.val) := by
  simp [symbolBits, h]

/-- 43_codec.md R86: on a valid symbol the mask changes nothing. -/
theorem symbolBits_of_valid {cfg : Config} {w : Nat} {x : Byte} (h : valid cfg w x = true) :
    ∃ c : Fin 64, codeOf cfg x = some c ∧ c.val < 2 ^ w ∧
      symbolBits cfg w x = packbits w c.val := by
  obtain ⟨c, hc, hlt⟩ := valid_iff_codeOf.mp h
  exact ⟨c, hc, hlt, by rw [symbolBits_of_codeOf w hc, lowBits, Nat.mod_eq_of_lt hlt]⟩

theorem decLoop_zero (cfg : Config) (w : Nat) (B : List Bool) : decLoop cfg w 0 B = [] := rfl

/-- The last `w` bits give the first symbol of the text. -/
theorem decLoop_append {w : Nat} {bits : List Bool} (cfg : Config) (n : Nat) (pre : List Bool)
    (h : bits.length = w) :
    decLoop cfg w (n + 1) (pre ++ bits) =
      cfg.alpha.get (Fin.ofNat 64 (unpackval w bits)) :: decLoop cfg w n pre := by
  simp [decLoop, romRead, unpackval_append pre h, dropTail_append pre h]

@[simp] theorem decLoop_length (cfg : Config) (w n : Nat) (B : List Bool) :
    (decLoop cfg w n B).length = n := by
  induction n generalizing B with
  | zero => rfl
  | succ n ih => simp [decLoop, ih]

end Sys2Proof.Machine
end

