-- ==== Sys2Proof/Laws/State.lean ====
section
/-! SUPPORT. One lemma for each field and each named update of the state. -/

namespace Sys2Proof.Machine

section
variable (s : State) (b : List Bool) (w : BitVec 3) (v : Nat) (out : List Byte) (e : ErrorKind)
  (c : Command) (d : DecodeError)

@[simp] theorem State.setBuf_config : (s.setBuf b).config = s.config := rfl
@[simp] theorem State.setBuf_buf : (s.setBuf b).buf = b := rfl
@[simp] theorem State.setBuf_width : (s.setBuf b).width = s.width := rfl
@[simp] theorem State.setBuf_mode : (s.setBuf b).mode = s.mode := rfl
@[simp] theorem State.setBuf_port : (s.setBuf b).port = s.port := rfl
@[simp] theorem State.setBuf_responses : (s.setBuf b).responses = s.responses := rfl
@[simp] theorem State.setBuf_len : (s.setBuf b).len = b.length := rfl

@[simp] theorem State.beginInstance_config : (s.beginInstance w b).config = s.config := rfl
@[simp] theorem State.beginInstance_buf : (s.beginInstance w b).buf = b := rfl
@[simp] theorem State.beginInstance_width : (s.beginInstance w b).width = w := rfl
@[simp] theorem State.beginInstance_mode : (s.beginInstance w b).mode = .encoded := rfl
@[simp] theorem State.beginInstance_port : (s.beginInstance w b).port = s.port := rfl
@[simp] theorem State.beginInstance_responses :
    (s.beginInstance w b).responses = s.responses := rfl
@[simp] theorem State.beginInstance_len : (s.beginInstance w b).len = b.length := rfl

@[simp] theorem State.release_config : s.release.config = s.config := rfl
@[simp] theorem State.release_buf : s.release.buf = [] := rfl
@[simp] theorem State.release_width : s.release.width = 0 := rfl
@[simp] theorem State.release_mode : s.release.mode = .uncon := rfl
@[simp] theorem State.release_port : s.release.port = s.port := rfl
@[simp] theorem State.release_responses : s.release.responses = s.responses := rfl
@[simp] theorem State.release_len : s.release.len = 0 := rfl

@[simp] theorem State.respond_config : (s.respond v out).config = s.config := rfl
@[simp] theorem State.respond_buf : (s.respond v out).buf = s.buf := rfl
@[simp] theorem State.respond_width : (s.respond v out).width = s.width := rfl
@[simp] theorem State.respond_mode : (s.respond v out).mode = s.mode := rfl
@[simp] theorem State.respond_port : (s.respond v out).port = s.port := rfl
@[simp] theorem State.respond_responses :
    (s.respond v out).responses = s.responses ++ [⟨okStatus, zext32 v, out⟩] := rfl
@[simp] theorem State.respond_len : (s.respond v out).len = s.len := rfl

@[simp] theorem State.raise_config : (s.raise e v).config = s.config := rfl
@[simp] theorem State.raise_buf : (s.raise e v).buf = s.buf := rfl
@[simp] theorem State.raise_width : (s.raise e v).width = s.width := rfl
@[simp] theorem State.raise_mode : (s.raise e v).mode = s.mode := rfl
@[simp] theorem State.raise_port : (s.raise e v).port = s.port := rfl
@[simp] theorem State.raise_responses :
    (s.raise e v).responses = s.responses ++ [⟨statusCode e, zext32 v, []⟩] := rfl
@[simp] theorem State.raise_len : (s.raise e v).len = s.len := rfl

@[simp] theorem presentNext_config : (presentNext c s).config = s.config := rfl
@[simp] theorem presentNext_buf : (presentNext c s).buf = s.buf := rfl
@[simp] theorem presentNext_width : (presentNext c s).width = s.width := rfl
@[simp] theorem presentNext_mode : (presentNext c s).mode = s.mode := rfl
@[simp] theorem presentNext_port : (presentNext c s).port = .command c :: s.port := rfl
@[simp] theorem presentNext_responses : (presentNext c s).responses = s.responses := rfl

/-- A rejected command is an error raised with its own word. -/
theorem rejectCommand_eq (cmd : Word) :
    rejectCommand (.illegalCommand cmd) s = s.raise .illegalCommand cmd.toNat := rfl

theorem hostReset_eq : hostReset s = s.release := rfl

theorem idle_eq : idle s = s := rfl

end

/-- What the port accepts first, and the state after: nothing changes but the port. -/
theorem takeEvent_cons {s : State} {e : HostEvent} {rest : List HostEvent}
    (h : s.port = e :: rest) : takeEvent s = some (e, { s with port := rest }) := by
  simp [takeEvent, h]

theorem takeEvent_nil {s : State} (h : s.port = []) : takeEvent s = none := by
  simp [takeEvent, h]

end Sys2Proof.Machine
end

