-- ==== Sys2Proof/Laws/Exec.lean ====
section
/-! SUPPORT. What a command can do, said once: `exec_cases`. -/

namespace Sys2Proof.Machine

/-- `s` with one more response, the state a command leaves that only answers. -/
def State.answer (s : State) (r : Response) : State :=
  { s with responses := s.responses ++ [r] }

theorem State.respond_eq_answer (s : State) (v : Nat) (out : List Byte) :
    s.respond v out = s.answer ⟨okStatus, zext32 v, out⟩ := rfl

theorem State.raise_eq_answer (s : State) (e : ErrorKind) (info : Nat) :
    s.raise e info = s.answer ⟨statusCode e, zext32 info, []⟩ := rfl

/-- What a command does when it does more than answer, to the buffer, WIDTH and MODE. -/
inductive Effect : Instr → State → State → Prop where
  | append {s : State} (b : Bool) (mode : s.mode = .uncon) (room : s.len + 1 ≤ s.config.cap) :
      Effect (.append b) s (s.setBuf (s.buf ++ [b]))
  | pop {s : State} (pre : List Bool) (v : Bool) (mode : s.mode = .uncon)
      (tail : s.buf = pre ++ [v]) : Effect .pop s (s.setBuf pre)
  | pack {s : State} (w : BitVec 3) (a : Byte) (mode : s.mode = .uncon)
      (room : s.len + w.toNat ≤ s.config.cap) :
      Effect (.pack w a) s (s.setBuf (s.buf ++ packbits w.toNat (a.toNat % 2 ^ w.toNat)))
  | unpack {s : State} (w : BitVec 3) (pre bits : List Bool) (mode : s.mode = .uncon)
      (tail : s.buf = pre ++ bits) (len : bits.length = w.toNat) :
      Effect (.unpack w) s (s.setBuf pre)
  | encode {s : State} (w : BitVec 3) (x : List Byte) (mode : s.mode = .uncon)
      (symbols : ∀ y ∈ x, valid s.config w.toNat y = true)
      (room : x.length * w.toNat ≤ s.config.cap) :
      Effect (.encode w x) s (s.beginInstance w (enc s.config w.toNat x))
  | clear {s : State} : Effect .clear s s.release

/-- Every command answers with one response `r`, and before it either changes nothing or has the
effect `Effect` names, in which case it succeeds. -/
theorem exec_cases (i : Instr) (s : State) : ∃ (u : State) (r : Response),
    exec i s = .next (u.answer r) ∧ (u = s ∨ Effect i s u ∧ r.status = okStatus ∧ r.out = []) := by
  have same : ∀ r : Response, exec i s = .next (s.answer r) → ∃ (u : State) (r : Response),
      exec i s = .next (u.answer r) ∧
        (u = s ∨ Effect i s u ∧ r.status = okStatus ∧ r.out = []) :=
    fun r h => ⟨s, r, h, .inl rfl⟩
  have done : ∀ (u : State) (v : Nat), exec i s = .next (u.respond v []) → Effect i s u →
      ∃ (u : State) (r : Response), exec i s = .next (u.answer r) ∧
        (u = s ∨ Effect i s u ∧ r.status = okStatus ∧ r.out = []) :=
    fun u v h he => ⟨u, _, h, .inr ⟨he, rfl, rfl⟩⟩
  have uncon : s.mode ≠ .encoded → s.mode = .uncon := by cases s.mode <;> simp
  cases i with
  | codeof x =>
    cases h : codeOf s.config x <;> exact same _ (by simp only [exec, execCodeof, h]; rfl)
  | symof a =>
    cases h : selectEntry (byteOperand a) <;>
      exact same _ (by simp only [exec, execSymof, h]; rfl)
  | append b =>
    by_cases hm : s.mode = .encoded
    · exact same _ (by simp only [exec, execAppend, hm, if_true]; rfl)
    · by_cases hc : s.len + 1 > s.config.cap
      · exact same _ (by simp only [exec, execAppend, hm, hc, if_true, if_false]; rfl)
      · exact done _ 0 (by simp only [exec, execAppend, hm, hc, if_false])
          (.append b (uncon hm) (by omega))
  | pop =>
    by_cases hm : s.mode = .encoded
    · exact same _ (by simp only [exec, execPop, hm, if_true]; rfl)
    · cases hl : s.buf.getLast? with
      | none => exact same _ (by simp only [exec, execPop, hm, hl, if_false]; rfl)
      | some v =>
        exact done _ v.toNat (by simp only [exec, execPop, hm, hl, if_false])
          (.pop _ v (uncon hm) (List.dropLast_append_getLast? v hl).symm)
  | length => exact same _ rfl
  | pack w a =>
    by_cases hm : s.mode = .encoded
    · exact same _ (by simp only [exec, execPack, hm, if_true]; rfl)
    · by_cases hc : s.len + widthOperand w > s.config.cap
      · exact same _ (by simp only [exec, execPack, hm, hc, if_true, if_false]; rfl)
      · exact done _ 0 (by simp only [exec, execPack, hm, hc, if_false])
          (.pack w a (uncon hm) (by simp only [widthOperand] at hc; omega))
  | unpack w =>
    by_cases hm : s.mode = .encoded
    · exact same _ (by simp only [exec, execUnpack, hm, if_true]; rfl)
    · by_cases hc : s.len < widthOperand w
      · exact same _ (by simp only [exec, execUnpack, hm, hc, if_true, if_false]; rfl)
      · obtain ⟨pre, bits, hb, hl⟩ := exists_append_of_le (Nat.le_of_not_lt hc)
        refine done (s.setBuf pre) (unpackval (widthOperand w) s.buf) ?_
          (.unpack w pre bits (uncon hm) hb hl)
        simp only [exec, execUnpack, hm, hc, if_false]
        rw [show dropTail (widthOperand w) s.buf = pre by rw [hb, dropTail_append pre hl]]
  | encode w x =>
    by_cases hm : s.mode = .encoded
    · exact same _ (by simp only [exec, execEncode, hm, if_true]; rfl)
    · cases hf : x.findIdx? fun y => !valid s.config (widthOperand w) y with
      | some k => exact same _ (by simp only [exec, execEncode, hm, hf, if_false]; rfl)
      | none =>
        by_cases hc : x.length * widthOperand w > s.config.cap
        · exact same _ (by simp only [exec, execEncode, hm, hf, hc, if_true, if_false]; rfl)
        · refine done _ 0 (by simp only [exec, execEncode, hm, hf, hc, if_false])
            (.encode w x (uncon hm) (fun y hy => ?_) (Nat.le_of_not_lt hc))
          simpa [widthOperand] using List.findIdx?_eq_none_iff.mp hf y hy
  | decode w =>
    cases h : selectWidth w s with
    | none => exact same _ (by simp only [exec, execDecode, h]; rfl)
    | some n =>
      by_cases hn : s.len % n ≠ 0
      · exact same _ (by simp only [exec, execDecode, h]; rw [if_pos hn]; rfl)
      · exact same _ (by simp only [exec, execDecode, h]; rw [if_neg hn]; rfl)
  | bitlen =>
    by_cases hm : s.mode = .uncon
    · exact same _ (by simp only [exec, execBitlen, hm, if_true]; rfl)
    · exact same _ (by simp only [exec, execBitlen, hm, if_false]; rfl)
  | symwidth =>
    by_cases hm : s.mode = .uncon
    · exact same _ (by simp only [exec, execSymwidth, hm, if_true]; rfl)
    · exact same _ (by simp only [exec, execSymwidth, hm, if_false]; rfl)
  | symcount =>
    by_cases hm : s.mode = .uncon
    · exact same _ (by simp only [exec, execSymcount, hm, if_true]; rfl)
    · exact same _ (by simp only [exec, execSymcount, hm, if_false]; rfl)
  | render => exact same _ rfl
  | clear => exact done _ 0 rfl .clear

end Sys2Proof.Machine
end

