-- ==== Sys2Proof/Laws/PerInstr.lean ====
section
/-! SUPPORT. The family `Encoding`: what the encoding of every command has in common
(30_encoding.md R53, R54, R55, R58), one lemma per constructor. -/

namespace Sys2Proof.Laws.Encoding

/-- The opcode of each command (R55). -/
def opcode : Instr → BitVec 4
  | .codeof _ => 0x1
  | .symof _ => 0x2
  | .append _ => 0x3
  | .pop => 0x4
  | .length => 0x5
  | .pack _ _ => 0x6
  | .unpack _ => 0x7
  | .encode _ _ => 0x8
  | .decode _ => 0x9
  | .bitlen => 0xA
  | .symwidth => 0xB
  | .symcount => 0xC
  | .render => 0xD
  | .clear => 0xE

/-- The encoded word has the command's opcode and no reserved bit, and only ENCODE has a payload. -/
def Statement (i : Instr) : Prop :=
  opField (Sys2Proof.encode i).word = opcode i ∧ rsvField (Sys2Proof.encode i).word = 0 ∧
    ((Sys2Proof.encode i).payload ≠ [] → opcode i = 0x8)

theorem codeof (s : Byte) : Statement (.codeof s) := by simp [Statement, Sys2Proof.encode, opcode]
theorem symof (a : Byte) : Statement (.symof a) := by simp [Statement, Sys2Proof.encode, opcode]
theorem append (bit : Bool) : Statement (.append bit) := by simp [Statement, Sys2Proof.encode, opcode]
theorem pop : Statement .pop := by simp [Statement, Sys2Proof.encode, opcode]
theorem length : Statement .length := by simp [Statement, Sys2Proof.encode, opcode]
theorem pack (w : BitVec 3) (a : Byte) : Statement (.pack w a) := by
  simp [Statement, Sys2Proof.encode, opcode]
theorem unpack (w : BitVec 3) : Statement (.unpack w) := by simp [Statement, Sys2Proof.encode, opcode]
theorem encode (w : BitVec 3) (t : List Byte) : Statement (.encode w t) := by
  simp [Statement, Sys2Proof.encode, opcode]
theorem decode (wsel : BitVec 3) : Statement (.decode wsel) := by
  simp [Statement, Sys2Proof.encode, opcode]
theorem bitlen : Statement .bitlen := by simp [Statement, Sys2Proof.encode, opcode]
theorem symwidth : Statement .symwidth := by simp [Statement, Sys2Proof.encode, opcode]
theorem symcount : Statement .symcount := by simp [Statement, Sys2Proof.encode, opcode]
theorem render : Statement .render := by simp [Statement, Sys2Proof.encode, opcode]
theorem clear : Statement .clear := by simp [Statement, Sys2Proof.encode, opcode]

end Sys2Proof.Laws.Encoding
end

