-- ==== Sys2Proof/Machine/AsmText.lean ====
section
/-! DEFINITION. Reading a line of assembly text (30_encoding.md R66, R67). The spec shows the forms of
a line and gives no lexical grammar; how blanks, digits and commas are read is log 8. -/

namespace Sys2Proof.Machine

/-- An operand as it is read: a number, in whichever form it was written (log 8), or a text. -/
inductive AsmOperand where
  | num (n : Nat)
  | text (t : List Byte)
  deriving DecidableEq, Repr

/-- A decimal digit. -/
def decDigit (c : Char) : Option Nat :=
  if 0x30 ≤ c.toNat && c.toNat ≤ 0x39 then some (c.toNat - 0x30) else none

/-- A hexadecimal digit, of either case. -/
def hexDigit (c : Char) : Option Nat :=
  if 0x41 ≤ c.toNat && c.toNat ≤ 0x46 then some (c.toNat - 0x37)
  else if 0x61 ≤ c.toNat && c.toNat ≤ 0x66 then some (c.toNat - 0x57)
  else decDigit c

/-- The two digits of `0xNN` or `\xNN`. -/
def hexByte (a b : Char) : Option Nat :=
  match hexDigit a, hexDigit b with
  | some h, some l => some (16 * h + l)
  | _, _ => none

/-- The decimal digits at the front of a line, after the number `n` read so far. -/
def readDigits (n : Nat) : List Char → Nat × List Char
  | [] => (n, [])
  | c :: cs =>
    match decDigit c with
    | none => (n, c :: cs)
    | some d => readDigits (10 * n + d) cs

/-- A text up to its closing quote: each character its byte, `\xNN` the byte NN (R66). -/
def readText : List Char → Option (List Byte × List Char)
  | [] => none
  | '"' :: cs => some ([], cs)
  | '\\' :: 'x' :: a :: b :: cs =>
    match hexByte a b, readText cs with
    | some n, some (t, rest) => some (BitVec.ofNat 8 n :: t, rest)
    | _, _ => none
  | c :: cs =>
    if c = '\\' || 256 ≤ c.toNat then none
    else
      match readText cs with
      | some (t, rest) => some (BitVec.ofNat 8 c.toNat :: t, rest)
      | none => none

/-- One operand and the rest of the line. -/
def readOperand : List Char → Option (AsmOperand × List Char)
  | '\'' :: c :: '\'' :: cs => some (.num c.toNat, cs)
  | '"' :: cs => (readText cs).map fun (t, rest) => (.text t, rest)
  | '0' :: 'x' :: a :: b :: cs => (hexByte a b).map fun n => (.num n, cs)
  | c :: cs => (decDigit c).map fun d => (.num (readDigits d cs).1, (readDigits d cs).2)
  | [] => none

/-- Blanks mean nothing between the parts of a line. -/
def skipBlanks (cs : List Char) : List Char := cs.dropWhile (· == ' ')

/-- The operands of a line: none, one, or two with a comma between them (R66). -/
def readOperands (cs : List Char) : Option (List AsmOperand) :=
  match skipBlanks cs with
  | [] => some []
  | cs =>
    match readOperand cs with
    | none => none
    | some (a, rest) =>
      match skipBlanks rest with
      | [] => some [a]
      | ',' :: rest =>
        match readOperand (skipBlanks rest) with
        | none => none
        | some (b, rest) => if skipBlanks rest = [] then some [a, b] else none
      | _ => none

/-- The mnemonics of R66 with the operands each takes, and those of R67. DESIGN CHOICE, unsafe (log 8):
every numeric operand may take every written form of a number. R66 shows only `'X'` and `0xNN` for the
symbol of CODEOF and shows no written form for the other numbers, so `CODEOF 65` and `SYMOF 'A'` are
lines of the model's. -/
def lineOf (mnemonic : List Char) (ops : List AsmOperand) : Option AsmLine :=
  if mnemonic = ['C', 'O', 'D', 'E', 'O', 'F'] then oneNum .codeof
  else if mnemonic = ['S', 'Y', 'M', 'O', 'F'] then oneNum .symof
  else if mnemonic = ['A', 'P', 'P', 'E', 'N', 'D'] then oneNum .append
  else if mnemonic = ['P', 'O', 'P'] then noOperand .pop
  else if mnemonic = ['L', 'E', 'N', 'G', 'T', 'H'] then noOperand .length
  else if mnemonic = ['P', 'A', 'C', 'K'] then
    match ops with
    | [.num w, .num code] => some (.pack w code)
    | _ => none
  else if mnemonic = ['U', 'N', 'P', 'A', 'C', 'K'] then oneNum .unpack
  else if mnemonic = ['E', 'N', 'C', 'O', 'D', 'E'] then
    match ops with
    | [.num w, .text t] => some (.encode w t)
    | _ => none
  else if mnemonic = ['D', 'E', 'C', 'O', 'D', 'E'] then
    match ops with
    | [] => some (.decode none)
    | [.num w] => some (.decode (some w))
    | _ => none
  else if mnemonic = ['B', 'I', 'T', 'L', 'E', 'N'] then noOperand .bitlen
  else if mnemonic = ['S', 'Y', 'M', 'W', 'I', 'D', 'T', 'H'] then noOperand .symwidth
  else if mnemonic = ['S', 'Y', 'M', 'C', 'O', 'U', 'N', 'T'] then noOperand .symcount
  else if mnemonic = ['R', 'E', 'N', 'D', 'E', 'R'] then noOperand .render
  else if mnemonic = ['C', 'L', 'E', 'A', 'R'] then noOperand .clear
  else if mnemonic = ['C', 'O', 'D', 'E', '_', 'O', 'F'] then oneNum (expandPseudo ∘ .codeOf)
  else if mnemonic = ['S', 'Y', 'M', 'B', 'O', 'L', '_', 'O', 'F'] then
    oneNum (expandPseudo ∘ .symbolOf)
  else if mnemonic = ['A', 'P', 'P', 'E', 'N', 'D', '_', 'B', 'I', 'T'] then
    oneNum (expandPseudo ∘ .appendBit)
  else if mnemonic = ['P', 'O', 'P', '_', 'B', 'I', 'T'] then noOperand (expandPseudo .popBit)
  else if mnemonic = ['T', 'O', '_', 'T', 'E', 'X', 'T'] then noOperand (expandPseudo .toText)
  else if mnemonic = ['B', 'I', 'T', 'S', 'T', 'R', 'I', 'N', 'G'] then
    noOperand (expandPseudo .bitstring)
  else if mnemonic = ['B', 'I', 'T', '_', 'L', 'E', 'N', 'G', 'T', 'H'] then
    noOperand (expandPseudo .bitLength)
  else if mnemonic = ['S', 'Y', 'M', 'B', 'O', 'L', '_', 'W', 'I', 'D', 'T', 'H'] then
    noOperand (expandPseudo .symbolWidth)
  else if mnemonic = ['S', 'Y', 'M', 'B', 'O', 'L', '_', 'C', 'O', 'U', 'N', 'T'] then
    noOperand (expandPseudo .symbolCount)
  else if mnemonic = ['R', 'E', 'L', 'E', 'A', 'S', 'E'] then noOperand (expandPseudo .release)
  else none
where
  noOperand (line : AsmLine) : Option AsmLine := if ops = [] then some line else none
  oneNum (f : Nat → AsmLine) : Option AsmLine :=
    match ops with
    | [.num n] => some (f n)
    | _ => none

/-- The line a text stands for: the mnemonic up to the first blank, then the operands. -/
def readLine (cs : List Char) : Option AsmLine :=
  (readOperands ((skipBlanks cs).dropWhile (· != ' '))).bind
    (lineOf ((skipBlanks cs).takeWhile (· != ' ')))

/-- The command a line of text assembles to; none is an assembly error (R66). -/
def assembleText (cs : List Char) : Option Command := (readLine cs).bind assemble

end Sys2Proof.Machine
end

