-- ==== Sys2Proof/Tests/Slice0.lean ====
section
/-! SUPPORT. Tests. The expected results are those of 95_test_vectors.md (a row is named by its id) or
are read off 30_encoding.md. After them, one witness for every obligation with hypotheses: values that
meet them, clause by clause, at the ends of their ranges. -/

open Sys2Proof Sys2Proof.Machine Sys2Proof.Safety

namespace Sys2Proof.Tests

/-! ### Small states -/

/-- A table that meets R9, for the tests only: 0x41 to 0x7E, then 0x20 and 0x21. -/
def cfg (cap : Nat) : Config where
  alpha := ⟨⟨(List.range 62).map (fun i => BitVec.ofNat 8 (0x41 + i)) ++ [0x20, 0x21]⟩, by decide⟩
  cap := cap

/-- UNCON mode with the given scratch bits. -/
def scratch (cap : Nat) (buf : List Bool) : State :=
  { State.afterReset (cfg cap) [] with buf := buf }

/-- ENCODED mode with the given instance. -/
def holding (cap : Nat) (w : BitVec 3) (buf : List Bool) : State :=
  { State.afterReset (cfg cap) [] with buf := buf, width := w, mode := .encoded }

/-- The state after `ENCODE 2, "ABCDCBA"` (L1.2 row 1). -/
def abcdcba : State :=
  holding 64 2 [false, false, true, false, false, true, true, true, false, true, true, false, false,
    false]

/-- The state after `ENCODE 2, "AB"` (C-1). -/
def ab : State := holding 64 2 [true, false, false, false]

/-- One step with the command `c` at the port: its response, then BUF, WIDTH and MODE. -/
def run (s : State) (c : Command) : Option (Response × List Bool × BitVec 3 × Mode) :=
  match step (present s [.command c]) with
  | .next t => t.responses.getLast?.map fun r => (r, t.buf, t.width, t.mode)
  | .fault _ => none
  | .refused _ => none

/-! ### WellFormed: an ill-formed term for each check -/

theorem test_pack_width_refused :
    (Instr.pack 0 5).wellFormed = false ∧ (Instr.pack 7 5).wellFormed = false := by decide
theorem test_unpack_width_refused :
    (Instr.unpack 0).wellFormed = false ∧ (Instr.unpack 7).wellFormed = false := by decide
theorem test_encode_width_refused :
    (Instr.encode 0 []).wellFormed = false ∧ (Instr.encode 7 []).wellFormed = false := by decide
theorem test_decode_selector_refused : (Instr.decode 7).wellFormed = false := by decide

/-! ### Decoding: a word of each command, bit by bit (OP, RSV, W, A; R53, R55) -/

theorem test_decode_codeof :
    decode ⟨0b0001_00000000000000000_000_01000100, []⟩ = .ok (.codeof 0x44) := by decide
theorem test_decode_symof :
    decode ⟨0b0010_00000000000000000_000_00111111, []⟩ = .ok (.symof 63) := by decide
theorem test_decode_append :
    decode ⟨0b0011_00000000000000000_000_00000001, []⟩ = .ok (.append true) ∧
    decode ⟨0b0011_00000000000000000_000_00000000, []⟩ = .ok (.append false) := by decide
theorem test_decode_pop :
    decode ⟨0b0100_00000000000000000_000_00000000, []⟩ = .ok .pop := by decide
theorem test_decode_length :
    decode ⟨0b0101_00000000000000000_000_00000000, []⟩ = .ok .length := by decide
theorem test_decode_pack :
    decode ⟨0b0110_00000000000000000_011_10000110, []⟩ = .ok (.pack 3 0x86) := by decide
theorem test_decode_unpack :
    decode ⟨0b0111_00000000000000000_110_00000000, []⟩ = .ok (.unpack 6) := by decide
theorem test_decode_encode :
    decode ⟨0b1000_00000000000000000_001_00000000, [0x41, 0x42]⟩ = .ok (.encode 1 [0x41, 0x42]) := by
  decide
theorem test_decode_decode :
    decode ⟨0b1001_00000000000000000_100_00000000, []⟩ = .ok (.decode 4) ∧
    decode ⟨0b1001_00000000000000000_000_00000000, []⟩ = .ok (.decode 0) := by decide
theorem test_decode_bitlen :
    decode ⟨0b1010_00000000000000000_000_00000000, []⟩ = .ok .bitlen := by decide
theorem test_decode_symwidth :
    decode ⟨0b1011_00000000000000000_000_00000000, []⟩ = .ok .symwidth := by decide
theorem test_decode_symcount :
    decode ⟨0b1100_00000000000000000_000_00000000, []⟩ = .ok .symcount := by decide
theorem test_decode_render :
    decode ⟨0b1101_00000000000000000_000_00000000, []⟩ = .ok .render := by decide
theorem test_decode_clear :
    decode ⟨0b1110_00000000000000000_000_00000000, []⟩ = .ok .clear := by decide

/-- E-1 to E-7, A-6, B-13, P-8, P-9, P-17, C-18 to C-20, C-32, C-33, C-43. -/
theorem test_decode_rejects :
    ∀ c ∈ ([⟨0x00000000, []⟩, ⟨0xF0000000, []⟩, ⟨0x10000841, []⟩, ⟨0x18000041, []⟩,
      ⟨0x50000000, [0x41]⟩, ⟨0x30000002, []⟩, ⟨0x40000100, []⟩, ⟨0x10000141, []⟩, ⟨0x50000001, []⟩,
      ⟨0x60000005, []⟩, ⟨0x60000705, []⟩, ⟨0x70000301, []⟩, ⟨0x80000000, [0x41]⟩,
      ⟨0x80000700, [0x41]⟩, ⟨0x80000101, [0x41]⟩, ⟨0x90000700, []⟩, ⟨0x90000000, [0x41]⟩,
      ⟨0xE0000001, []⟩] : List Command), decode c = .error (.illegalCommand c.word) := by decide

/-- The row CODEOF of opcode_table.json, its word at the port of the reset block. -/
theorem test_table_word : decodeTableWord 32 0x10000041 = some (.codeof 0x41) ∧
    (State.reset.withFetchWord 32 0x10000041).port = [.command ⟨0x10000041, []⟩] := by decide

/-- Lines of L3.1 to L3.5, of A-2 and of R67, with their words. -/
theorem test_assembler_text :
    assembleText "ENCODE 1, \"BA\"".toList = some ⟨0x80000100, [0x42, 0x41]⟩ ∧
    assembleText "ENCODE 2, \"A\\x00\"".toList = some ⟨0x80000200, [0x41, 0x00]⟩ ∧
    assembleText "CODEOF 'D'".toList = some ⟨0x10000044, []⟩ ∧
    assembleText "CODEOF 0x00".toList = some ⟨0x10000000, []⟩ ∧
    assembleText "SYMOF 64".toList = some ⟨0x20000040, []⟩ ∧
    assembleText "PACK 2, 0xFF".toList = some ⟨0x600002FF, []⟩ ∧
    assembleText "DECODE".toList = some ⟨0x90000000, []⟩ ∧
    assembleText "TO_TEXT".toList = some ⟨0x90000000, []⟩ ∧
    assembleText "APPEND_BIT 1".toList = some ⟨0x30000001, []⟩ ∧
    assembleText "APPEND 2".toList = none ∧ assembleText "PACK 7, 1".toList = none := by decide

/-! ### One step of each command -/

/-- A-2. -/
theorem test_codeof_d : run (scratch 64 []) ⟨0x10000044, []⟩ =
    some (⟨0x0, 3, []⟩, [], 0, .uncon) := by decide +kernel
/-- A-5. -/
theorem test_codeof_ff : run (scratch 64 []) ⟨0x100000FF, []⟩ =
    some (⟨0x1, 255, []⟩, [], 0, .uncon) := by decide +kernel
/-- A-10, with the ALPHA[63] of this table. -/
theorem test_symof_63 : run (scratch 64 []) ⟨0x2000003F, []⟩ =
    some (⟨0x0, 0x21, []⟩, [], 0, .uncon) := by decide +kernel
/-- A-11. -/
theorem test_symof_64 : run (scratch 64 []) ⟨0x20000040, []⟩ =
    some (⟨0x1, 64, []⟩, [], 0, .uncon) := by decide +kernel
/-- B-2. -/
theorem test_append : run (scratch 4 [true]) ⟨0x30000000, []⟩ =
    some (⟨0x0, 0, []⟩, [true, false], 0, .uncon) := by decide +kernel
/-- B-3. -/
theorem test_append_full : run (scratch 2 [true, false]) ⟨0x30000001, []⟩ =
    some (⟨0x7, 3, []⟩, [true, false], 0, .uncon) := by decide +kernel
/-- B-7. -/
theorem test_pop : run (scratch 64 [true, false, true]) ⟨0x40000000, []⟩ =
    some (⟨0x0, 1, []⟩, [true, false], 0, .uncon) := by decide +kernel
/-- B-10. -/
theorem test_pop_immutable : run (holding 64 1 []) ⟨0x40000000, []⟩ =
    some (⟨0x8, 0, []⟩, [], 1, .encoded) := by decide +kernel
/-- B-12. -/
theorem test_length : run abcdcba ⟨0x50000000, []⟩ =
    some (⟨0x0, 14, []⟩, abcdcba.buf, 2, .encoded) := by decide +kernel
/-- L1.2 row 2. -/
theorem test_render : run abcdcba ⟨0xD0000000, []⟩ =
    some (⟨0x0, 0, [0x30, 0x30, 0x31, 0x30, 0x30, 0x31, 0x31, 0x31, 0x30, 0x31, 0x31, 0x30, 0x30,
      0x30]⟩, abcdcba.buf, 2, .encoded) := by decide +kernel
/-- P-1. -/
theorem test_pack : run (scratch 8 []) ⟨0x60000306, []⟩ =
    some (⟨0x0, 0, []⟩, [false, true, true], 0, .uncon) := by decide +kernel
/-- P-7. -/
theorem test_pack_full : run (scratch 4 [true, true]) ⟨0x60000306, []⟩ =
    some (⟨0x7, 5, []⟩, [true, true], 0, .uncon) := by decide +kernel
/-- P-12. -/
theorem test_unpack : run (scratch 64 [false, true, true]) ⟨0x70000200, []⟩ =
    some (⟨0x0, 3, []⟩, [false], 0, .uncon) := by decide +kernel
/-- P-15. -/
theorem test_unpack_short : run (scratch 64 [true, true]) ⟨0x70000300, []⟩ =
    some (⟨0x3, 2, []⟩, [true, true], 0, .uncon) := by decide +kernel
/-- C-5, with the ALPHA[17] of this table. -/
theorem test_encode : run (scratch 64 []) ⟨0x80000500, [0x52, 0x43]⟩ =
    some (⟨0x0, 0, []⟩, [false, true, false, false, false, true, false, false, false, true], 5,
      .encoded) := by decide +kernel
/-- C-16. -/
theorem test_encode_invalid_before_full : run (scratch 4 []) ⟨0x80000100, [0x41, 0x42, 0x43]⟩ =
    some (⟨0x2, 2, []⟩, [], 0, .uncon) := by decide +kernel
/-- C-26, with the ALPHA[6] of this table. -/
theorem test_decode : run (holding 6 2 [false, true, true, false, false, false]) ⟨0x90000300, []⟩ =
    some (⟨0x0, 0, [0x41, 0x47]⟩, [false, true, true, false, false, false], 2, .encoded) := by
  decide +kernel
/-- C-29. -/
theorem test_decode_corrupt : run abcdcba ⟨0x90000300, []⟩ =
    some (⟨0x4, 14, []⟩, abcdcba.buf, 2, .encoded) := by decide +kernel
/-- C-34. -/
theorem test_bitlen : run abcdcba ⟨0xA0000000, []⟩ =
    some (⟨0x0, 14, []⟩, abcdcba.buf, 2, .encoded) := by decide +kernel
/-- C-38. -/
theorem test_bitlen_no_instance : run (scratch 64 []) ⟨0xA0000000, []⟩ =
    some (⟨0x9, 0, []⟩, [], 0, .uncon) := by decide +kernel
/-- C-35. -/
theorem test_symwidth : run abcdcba ⟨0xB0000000, []⟩ =
    some (⟨0x0, 2, []⟩, abcdcba.buf, 2, .encoded) := by decide +kernel
/-- C-39. -/
theorem test_symwidth_no_instance : run (scratch 64 []) ⟨0xB0000000, []⟩ =
    some (⟨0x9, 0, []⟩, [], 0, .uncon) := by decide +kernel
/-- C-36. -/
theorem test_symcount : run abcdcba ⟨0xC0000000, []⟩ =
    some (⟨0x0, 7, []⟩, abcdcba.buf, 2, .encoded) := by decide +kernel
/-- C-40. -/
theorem test_symcount_no_instance : run (scratch 64 []) ⟨0xC0000000, []⟩ =
    some (⟨0x9, 0, []⟩, [], 0, .uncon) := by decide +kernel
/-- C-41. -/
theorem test_clear : run (holding 64 1 [true, false]) ⟨0xE0000000, []⟩ =
    some (⟨0x0, 0, []⟩, [], 0, .uncon) := by decide +kernel
/-- E-1, in ENCODED mode. -/
theorem test_illegal : run ab ⟨0x00000000, []⟩ =
    some (⟨0x6, 0, []⟩, ab.buf, 2, .encoded) := by decide +kernel
/-- R115: the reset event has no response. -/
theorem test_reset_event : step (present ab [.reset]) = .next (scratch 64 []) := by rfl

/-! ### Witnesses -/

theorem cfg_admissible {cap : Nat} (h : cap ≤ 2 ^ 32 - 1) : (cfg cap).Admissible where
  injective := by
    have : ∀ c d : Fin 64, (cfg 0).alpha.get c = (cfg 0).alpha.get d → c = d := by decide +kernel
    exact this
  letters := ⟨rfl, rfl, rfl, rfl⟩
  printable := by
    have : ∀ c : Fin 64, 0x20 ≤ ((cfg 0).alpha.get c).toNat ∧ ((cfg 0).alpha.get c).toNat ≤ 0x7E := by
      decide +kernel
    exact this
  cap_le := h

/-- A full scratch buffer of four bits is consistent. -/
theorem scratch_consistent : Consistent (scratch 4 [true, false, true, true]) where
  admissible := cfg_admissible (by decide)
  len_le_cap := by decide
  width_zero_iff := by decide
  width_legal := by decide
  encodes := by intro h; cases h

/-- An empty scratch buffer is consistent. -/
theorem empty_consistent : Consistent (scratch 4 []) where
  admissible := cfg_admissible (by decide)
  len_le_cap := by decide
  width_zero_iff := by decide
  width_legal := by decide
  encodes := by intro h; cases h

/-- The instance of the text "AB" at width 2 is consistent. -/
theorem ab_consistent : Consistent ab where
  admissible := cfg_admissible (by decide)
  len_le_cap := by decide
  width_zero_iff := by decide
  width_legal := by decide
  encodes := fun _ => ⟨[0x41, 0x42], by decide +kernel, by decide +kernel⟩

theorem witness_DecodeOfEncode :
    (Instr.pack 1 0xFF).wellFormed = true ∧ (Instr.pack 6 0).wellFormed = true ∧
    (Instr.encode 6 [0x41]).wellFormed = true ∧ (Instr.decode 0).wellFormed = true ∧
    (Instr.decode 6).wellFormed = true := by decide

theorem witness_EncodeOfDecode :
    decode ⟨0x60000306, []⟩ = .ok (.pack 3 6) ∧ decode ⟨0x90000600, []⟩ = .ok (.decode 6) := by decide

/-- One command for each way to be reserved, in the order of the statement. -/
theorem witness_ReservedFormsAreIllegal :
    (0x50000800 : Word).extractLsb' 11 17 ≠ 0 ∧ (0x58000000 : Word).extractLsb' 11 17 ≠ 0 ∧
    (0x00000000 : Word).extractLsb' 28 4 = 0x0 ∧ (0xF0000000 : Word).extractLsb' 28 4 = 0xF ∧
    (0x90000700 : Word).extractLsb' 8 3 = 7 ∧
    ((0x40000100 : Word).extractLsb' 8 3 ≠ 0 ∧ (0x40000100 : Word).extractLsb' 28 4 ∉
      ([0x6, 0x7, 0x8, 0x9] : List (BitVec 4))) ∧
    ((0x60000005 : Word).extractLsb' 8 3 = 0 ∧ (0x60000005 : Word).extractLsb' 28 4 ∈
      ([0x6, 0x7, 0x8] : List (BitVec 4))) ∧
    ((0x40000001 : Word).extractLsb' 0 8 ≠ 0 ∧ (0x40000001 : Word).extractLsb' 28 4 ∉
      ([0x1, 0x2, 0x3, 0x6] : List (BitVec 4))) ∧
    ((0x30000002 : Word).extractLsb' 1 7 ≠ 0 ∧ (0x30000002 : Word).extractLsb' 28 4 = 0x3) ∧
    (([0x41] : List Byte) ≠ [] ∧ (0x90000000 : Word).extractLsb' 28 4 ≠ 0x8) := by decide

theorem witness_AssemblerEmitsLegalCommands :
    assemble (.pack 6 255) = some ⟨0x600006FF, []⟩ ∧ assemble (.pack 6 256) = none ∧
    assemble (.pack 0 0) = none ∧ assemble (.pack 7 0) = none ∧
    assemble (.codeof 256) = none ∧ assemble (.symof 255) = some ⟨0x200000FF, []⟩ ∧
    assemble (.append 2) = none ∧ assemble (.decode (some 7)) = none ∧
    assemble (.decode none) = some ⟨0x90000000, []⟩ := by decide

theorem witness_StepRunsDecodedCommand :
    (present ab [.command ⟨0x90000000, []⟩, .reset]).port =
      .command ⟨0x90000000, []⟩ :: [.reset] ∧
    decode ⟨0x90000000, []⟩ = .ok (.decode 0) := by decide

theorem witness_IllegalCommandAnswersItsWord :
    (present ab [.command ⟨0xF0000000, []⟩]).port = .command ⟨0xF0000000, []⟩ :: [] ∧
    decode ⟨0xF0000000, []⟩ = .error (.illegalCommand 0xF0000000) := by decide

theorem witness_ResetEventRestoresResetValues : (present ab [.reset]).port = .reset :: [] := by decide

theorem witness_IdleBlockHoldsItsState : ab.port = [] := by decide

/-- A RENDER and a DECODE with a payload. -/
theorem witness_OneResponsePerCommand :
    (run ab ⟨0xD0000000, []⟩).map (fun x => x.1.out) = some [0x31, 0x30, 0x30, 0x30] ∧
    (run ab ⟨0x90000000, []⟩).map (fun x => x.1.out) = some [0x41, 0x42] := by decide +kernel

theorem witness_FailingCommandWritesNoState :
    (run (scratch 4 []) ⟨0x40000000, []⟩).map (fun x => x.1.status) = some 0x3 ∧
    (run ab ⟨0xF0000000, []⟩).map (fun x => x.1.status) = some 0x6 := by decide +kernel

theorem witness_ReservedStatusesNeverProduced :
    (∃ t, step (present ab [.reset]) = .next t ∧ t.responses = (present ab [.reset]).responses) ∧
    ∃ t r, step (present ab [.command ⟨0xA0000000, []⟩]) = .next t ∧
      t.responses = ab.responses ++ [r] ∧ r.status = 0x0 :=
  ⟨⟨_, rfl, rfl⟩, ⟨_, _, rfl, rfl, rfl⟩⟩

/-- Each status, from consistent states. -/
theorem witness_ErrorsRaisedOnlyByTheirCommands :
    Consistent (scratch 4 []) ∧ Consistent (scratch 4 [true, false, true, true]) ∧ Consistent ab ∧
    (run ab ⟨0x10000000, []⟩).map (fun x => x.1.status) = some 0x1 ∧
    (run ab ⟨0x20000040, []⟩).map (fun x => x.1.status) = some 0x1 ∧
    (run (scratch 4 []) ⟨0x80000100, [0x43]⟩).map (fun x => x.1.status) = some 0x2 ∧
    (run (scratch 4 []) ⟨0x70000100, []⟩).map (fun x => x.1.status) = some 0x3 ∧
    (run ab ⟨0x90000300, []⟩).map (fun x => x.1.status) = some 0x4 ∧
    (run (scratch 4 [true, false, true, true]) ⟨0x30000001, []⟩).map (fun x => x.1.status) =
      some 0x7 ∧
    (run ab ⟨0x60000101, []⟩).map (fun x => x.1.status) = some 0x8 ∧
    (run (scratch 4 []) ⟨0x90000000, []⟩).map (fun x => x.1.status) = some 0x9 :=
  ⟨empty_consistent, scratch_consistent, ab_consistent, by decide +kernel⟩

/-- Clause by clause; the text of the last is too long for the buffer as well. -/
theorem witness_ErrorChecksInOrder :
    ((present ab [.command ⟨0xF0000000, []⟩]).port = .command ⟨0xF0000000, []⟩ :: [] ∧
      decode ⟨0xF0000000, []⟩ = .error (.illegalCommand 0xF0000000)) ∧
    ab.mode = .encoded ∧ (scratch 4 []).mode = .uncon ∧
    (∀ z ∈ ([0x41, 0x42] : List Byte),
      valid (scratch 2 []).config (1 : BitVec 3).toNat z = true) ∧
    valid (scratch 2 []).config (1 : BitVec 3).toNat 0x43 = false ∧
    (scratch 2 []).config.cap <
      (([0x41, 0x42] : List Byte) ++ 0x43 :: []).length * (1 : BitVec 3).toNat := by decide +kernel

theorem witness_ReverseDecoderInvertsTable : (cfg 4).Admissible ∧ Config.device.Admissible :=
  ⟨cfg_admissible (by decide), Config.device_admissible⟩

theorem witness_CodeofAnswersCode :
    (scratch 4 []).config.Admissible ∧ (scratch 4 []).config.alpha.get 63 = 0x21 ∧
    ∀ c : Fin 64, (scratch 4 []).config.alpha.get c ≠ 0x7F :=
  ⟨cfg_admissible (by decide), by decide +kernel⟩

theorem witness_SymofAnswersSymbol : (63 : Byte).toNat < 64 ∧ 64 ≤ (64 : Byte).toNat := by decide

theorem witness_ValidIsFirstEntries :
    (cfg 4).Admissible ∧ valid (cfg 4) 6 0x21 = true ∧ valid (cfg 4) 1 0x43 = false :=
  ⟨cfg_admissible (by decide), by decide +kernel⟩

theorem witness_AlphabetsAreNested :
    (cfg 4).Admissible ∧ (1 ≤ 1 ∧ 1 < 2 ∧ 2 ≤ 6) ∧ (1 ≤ 5 ∧ 5 < 6 ∧ 6 ≤ 6) :=
  ⟨cfg_admissible (by decide), by decide, by decide⟩

theorem witness_LookupsAreInverse :
    ab.config.Admissible ∧ codeOf ab.config 0x21 = some 63 ∧
    (scratch 64 []).config = ab.config :=
  ⟨cfg_admissible (by decide), by decide +kernel⟩

theorem witness_AppendPutsBitAtTail :
    ((scratch 4 [true, true, false]).mode = .uncon ∧
      (scratch 4 [true, true, false]).len + 1 ≤ (scratch 4 [true, true, false]).config.cap) ∧
    ab.mode = .encoded ∧
    ((scratch 0 []).mode = .uncon ∧ (scratch 0 []).config.cap < (scratch 0 []).len + 1 ∧
      (scratch 0 []).len + 1 < 2 ^ 32) := by decide

theorem witness_PopTakesTailBit :
    ((scratch 4 [true]).mode = .uncon ∧ (scratch 4 [true]).buf = [] ++ [true]) ∧
    (holding 4 1 []).mode = .encoded ∧
    ((scratch 4 []).mode = .uncon ∧ (scratch 4 []).len = 0) := by decide

theorem witness_LengthAnswersLen : Consistent (scratch 4 [true, false, true, true]) ∧ Consistent ab :=
  ⟨scratch_consistent, ab_consistent⟩

theorem witness_PopsReverseAppends :
    (scratch 4 [true]).mode = .uncon ∧
    (scratch 4 [true]).len + [true, false, false].length ≤ (scratch 4 [true]).config.cap := by decide

/-- A failing POP, a succeeding APPEND, a succeeding POP. -/
theorem witness_LengthChangesByOne :
    (∃ t r, exec .pop (scratch 4 []) = .next t ∧ t.responses = (scratch 4 []).responses ++ [r] ∧
      r.status ≠ 0x0) ∧
    (∃ t r, exec (.append true) (scratch 4 []) = .next t ∧
      t.responses = (scratch 4 []).responses ++ [r] ∧ r.status = 0x0) ∧
    ∃ t r, exec .pop (scratch 4 [true]) = .next t ∧
      t.responses = (scratch 4 [true]).responses ++ [r] ∧ r.status = 0x0 :=
  ⟨⟨_, _, rfl, rfl, by decide⟩, ⟨_, _, rfl, rfl, rfl⟩, ⟨_, _, rfl, rfl, rfl⟩⟩

theorem witness_PackAppendsLowBits :
    (legalWidth 1 = true ∧ legalWidth 6 = true) ∧
    ((scratch 6 []).mode = .uncon ∧
      (scratch 6 []).len + (6 : BitVec 3).toNat ≤ (scratch 6 []).config.cap) ∧
    ab.mode = .encoded ∧
    ((scratch 0 []).mode = .uncon ∧
      (scratch 0 []).config.cap < (scratch 0 []).len + (1 : BitVec 3).toNat ∧
      (scratch 0 []).len + (1 : BitVec 3).toNat < 2 ^ 32) := by decide

/-- A full buffer of the largest capacity. -/
theorem witness_CapacityErrorSaturates :
    ∃ s : State, s.config.Admissible ∧ s.mode = .uncon ∧ s.config.cap < s.len + 1 ∧
      2 ^ 32 ≤ s.len + 1 ∧ s.config.cap < s.len + (6 : BitVec 3).toNat ∧
      2 ^ 32 ≤ s.len + (6 : BitVec 3).toNat := by
  have hl : (scratch (2 ^ 32 - 1) (List.replicate (2 ^ 32 - 1) true)).len = 2 ^ 32 - 1 :=
    List.length_replicate
  have hc : (scratch (2 ^ 32 - 1) (List.replicate (2 ^ 32 - 1) true)).config.cap = 2 ^ 32 - 1 := rfl
  refine ⟨scratch (2 ^ 32 - 1) (List.replicate (2 ^ 32 - 1) true), cfg_admissible (by decide), rfl, ?_⟩
  rw [hl, hc]
  decide

theorem witness_PackEqualsAppends :
    legalWidth 6 = true ∧ (scratch 7 [true]).mode = .uncon ∧
    (scratch 7 [true]).len + (6 : BitVec 3).toNat ≤ (scratch 7 [true]).config.cap := by decide

theorem witness_UnpackvalIsWeightedSum :
    (1 ≤ 6 ∧ 6 ≤ 6 ∧ 6 ≤ [true, false, true, true, false, true].length) ∧
    (1 ≤ 1 ∧ 1 ≤ 6 ∧ 1 ≤ [true, false].length) := by decide

theorem witness_UnpackTakesTailCode :
    (legalWidth 1 = true ∧ legalWidth 6 = true) ∧
    ((scratch 8 [true, false, true]).mode = .uncon ∧
      (scratch 8 [true, false, true]).buf = [true] ++ [false, true] ∧
      [false, true].length = (2 : BitVec 3).toNat) ∧
    ab.mode = .encoded ∧
    ((scratch 8 [true, false]).mode = .uncon ∧
      (scratch 8 [true, false]).len < (3 : BitVec 3).toNat) := by decide

theorem witness_UnpackEqualsPops :
    legalWidth 3 = true ∧ (scratch 8 [true, false, true]).mode = .uncon ∧
    (3 : BitVec 3).toNat ≤ (scratch 8 [true, false, true]).len := by decide

theorem witness_PackAndUnpackAreInverse :
    legalWidth 3 = true ∧ (scratch 3 []).mode = .uncon ∧
    (scratch 3 []).len + (3 : BitVec 3).toNat ≤ (scratch 3 []).config.cap ∧
    (scratch 3 [true, false, true]).mode = .uncon ∧
    (3 : BitVec 3).toNat ≤ (scratch 3 [true, false, true]).len ∧
    (scratch 3 [true, false, true]).len ≤ (scratch 3 [true, false, true]).config.cap := by decide

theorem witness_EncPacksReversedText :
    (cfg 4).Admissible ∧ 1 ≤ 6 ∧ 6 ≤ 6 ∧ ∀ c ∈ ([63, 0, 32] : List (Fin 64)), c.val < 2 ^ 6 :=
  ⟨cfg_admissible (by decide), by decide⟩

/-- Clause by clause: a text that just fits, an instance, an invalid symbol after a valid one, a text
one bit too long. -/
theorem witness_EncodeBuildsInstance :
    (legalWidth 1 = true ∧ legalWidth 6 = true) ∧
    ((scratch 12 [true]).mode = .uncon ∧
      (∀ y ∈ ([0x61, 0x41] : List Byte),
        valid (scratch 12 [true]).config (6 : BitVec 3).toNat y = true) ∧
      2 * (6 : BitVec 3).toNat ≤ (scratch 12 [true]).config.cap) ∧
    ab.mode = .encoded ∧
    ((∀ z ∈ ([0x41] : List Byte), valid (scratch 4 []).config (1 : BitVec 3).toNat z = true) ∧
      valid (scratch 4 []).config (1 : BitVec 3).toNat 0x43 = false) ∧
    ((∀ y ∈ ([0x41, 0x42] : List Byte),
        valid (scratch 1 []).config (1 : BitVec 3).toNat y = true) ∧
      (scratch 1 []).config.cap < 2 * (1 : BitVec 3).toNat) := by decide +kernel

/-- The hypotheses of the statements about a text that is encoded: EncodeLayout,
EncodedLengthIsTextTimesWidth, DecodeOfEncodedTextIsText, and the second clause of
CommandsSeeEarlierEffects. -/
theorem witness_EncodeLayout :
    legalWidth 6 = true ∧ (scratch 12 [true]).config.Admissible ∧ (scratch 12 [true]).mode = .uncon ∧
    (∀ y ∈ ([0x61, 0x41] : List Byte),
      valid (scratch 12 [true]).config (6 : BitVec 3).toNat y = true) ∧
    2 * (6 : BitVec 3).toNat ≤ (scratch 12 [true]).config.cap ∧
    (1 < 2 ∧ 5 < (6 : BitVec 3).toNat) :=
  ⟨by decide, cfg_admissible (by decide), by decide +kernel⟩

theorem witness_EncodedLengthIsTextTimesWidth :
    legalWidth 1 = true ∧ (scratch 2 []).config.Admissible ∧ (scratch 2 []).mode = .uncon ∧
    (∀ y ∈ ([0x41, 0x42] : List Byte),
      valid (scratch 2 []).config (1 : BitVec 3).toNat y = true) ∧
    2 * (1 : BitVec 3).toNat ≤ (scratch 2 []).config.cap :=
  ⟨by decide, cfg_admissible (by decide), by decide +kernel⟩

theorem witness_DecodeOfEncodedTextIsText :
    legalWidth 2 = true ∧ (scratch 14 []).config.Admissible ∧ (scratch 14 []).mode = .uncon ∧
    (∀ y ∈ ([0x41, 0x42, 0x43, 0x44, 0x43, 0x42, 0x41] : List Byte),
      valid (scratch 14 []).config (2 : BitVec 3).toNat y = true) ∧
    7 * (2 : BitVec 3).toNat ≤ (scratch 14 []).config.cap :=
  ⟨by decide, cfg_admissible (by decide), by decide +kernel⟩

theorem witness_DecodedTextInClosedForm :
    (1 ≤ 6 ∧ 6 ≤ 6 ∧ [true, false, true, true, false, true].length % 6 = 0 ∧
      0 < [true, false, true, true, false, true].length / 6) ∧
    (1 ≤ 1 ∧ 1 ≤ 6 ∧ [true, false].length % 1 = 0 ∧ 1 < [true, false].length / 1) := by decide

/-- Clause by clause. -/
theorem witness_DecodeAnswersText :
    (legalSelector 0 = true ∧ legalSelector 6 = true) ∧ (scratch 4 []).mode = .uncon ∧
    (ab.mode = .encoded ∧ Consistent ab) ∧
    ((1 : BitVec 3) ≠ 0 ∧ ab.len % (1 : BitVec 3).toNat = 0) ∧
    ((6 : BitVec 3) ≠ 0 ∧ ab.len % (6 : BitVec 3).toNat ≠ 0) :=
  ⟨by decide, by decide, ⟨by decide, ab_consistent⟩, by decide, by decide⟩

theorem witness_BitlenAnswersLen :
    (Consistent ab ∧ ab.mode = .encoded) ∧ Consistent (scratch 4 []) ∧ (scratch 4 []).mode = .uncon :=
  ⟨⟨ab_consistent, by decide⟩, empty_consistent, by decide⟩

theorem witness_SymwidthAnswersWidth : ab.mode = .encoded ∧ (scratch 4 []).mode = .uncon := by decide

theorem witness_SymcountAnswersSymbols :
    (Consistent ab ∧ ab.mode = .encoded) ∧ Consistent (scratch 4 []) ∧ (scratch 4 []).mode = .uncon :=
  ⟨⟨ab_consistent, by decide⟩, empty_consistent, by decide⟩

theorem witness_EmptyTextEncodesToNothing :
    legalWidth 6 = true ∧ (scratch 0 []).mode = .uncon := by decide

/-- An ENCODE that succeeds, one that fails, a CLEAR, an ENCODE of an instance, a LENGTH, a reset. -/
theorem witness_ModeTransitionsAreThese :
    run (scratch 4 []) ⟨0x80000100, [0x42]⟩ = some (⟨0x0, 0, []⟩, [true], 1, .encoded) ∧
    run (scratch 4 []) ⟨0x80000100, [0x43]⟩ = some (⟨0x2, 0, []⟩, [], 0, .uncon) ∧
    run ab ⟨0xE0000000, []⟩ = some (⟨0x0, 0, []⟩, [], 0, .uncon) ∧
    run ab ⟨0x80000200, []⟩ = some (⟨0x8, 0, []⟩, ab.buf, 2, .encoded) ∧
    run ab ⟨0x50000000, []⟩ = some (⟨0x0, 4, []⟩, ab.buf, 2, .encoded) ∧
    (present ab [.reset]).port = .reset :: [] := by
  refine ⟨?_, ?_, ?_, ?_, ?_, rfl⟩ <;> decide +kernel

theorem witness_ReadCommandsChangeNothing :
    (∃ x, Instr.codeof 0x41 = .codeof x) ∧ ∃ w, Instr.decode 6 = .decode w := ⟨⟨_, rfl⟩, ⟨_, rfl⟩⟩

theorem witness_RawCommandsReachOnlyTheTail :
    (∃ t, exec .pop (scratch 4 [true]) = .next t) ∧ (∃ t, exec (.append true) (scratch 4 []) = .next t) ∧
    (∃ t, exec (.pack 6 0xFF) (scratch 6 []) = .next t) ∧
    ∃ t, exec (.unpack 1) (scratch 6 [true]) = .next t :=
  ⟨⟨_, rfl⟩, ⟨_, rfl⟩, ⟨_, rfl⟩, ⟨_, rfl⟩⟩

theorem witness_InstanceIsImmutable :
    (present ab [.command ⟨0xE0000000, []⟩]).mode = .encoded ∧
    ∃ t, step (present ab [.command ⟨0xE0000000, []⟩]) = .next t := ⟨rfl, _, rfl⟩

theorem witness_ConfigurationNeverChanges : ∃ t, step (present ab [.reset]) = .next t := ⟨_, rfl⟩

theorem witness_CommandsSeeEarlierEffects :
    ((scratch 1 []).mode = .uncon ∧ (scratch 1 []).len < (scratch 1 []).config.cap) ∧
    ((scratch 1 []).config.Admissible ∧ legalWidth 1 = true ∧
      (∀ y ∈ ([0x42] : List Byte), valid (scratch 1 []).config (1 : BitVec 3).toNat y = true) ∧
      1 * (1 : BitVec 3).toNat ≤ (scratch 1 []).config.cap) :=
  ⟨by decide, cfg_admissible (by decide), by decide +kernel⟩

/-- What the host presents is no part of the invariant. -/
theorem present_consistent {s : State} (h : Consistent s) (events : List HostEvent) :
    Consistent (present s events) :=
  ⟨h.admissible, h.len_le_cap, h.width_zero_iff, h.width_legal, h.encodes⟩

/-- From an instance by CLEAR, and to one by ENCODE. -/
theorem witness_EveryStepKeepsInvariant :
    (Consistent (present ab [.command ⟨0xE0000000, []⟩]) ∧
      ∃ t, step (present ab [.command ⟨0xE0000000, []⟩]) = .next t) ∧
    Consistent (present (scratch 4 []) [.command ⟨0x80000200, [0x41, 0x42]⟩]) ∧
      ∃ t, step (present (scratch 4 []) [.command ⟨0x80000200, [0x41, 0x42]⟩]) = .next t :=
  ⟨⟨present_consistent ab_consistent _, _, rfl⟩, present_consistent empty_consistent _, _, rfl⟩

theorem witness_InvariantHoldsAtReset : (cfg 0).Admissible ∧ (cfg (2 ^ 32 - 1)).Admissible :=
  ⟨cfg_admissible (by decide), cfg_admissible (by decide)⟩

/-- The instance of "AB" is reached from reset by one ENCODE, and the empty buffer in no step. -/
theorem witness_ReachableStatesAreConsistent :
    Reachable { ab with responses := [⟨0x0, 0, []⟩] } ∧ Reachable (scratch 4 []) :=
  ⟨⟨cfg 64, [.command ⟨0x80000200, [0x41, 0x42]⟩], 1, cfg_admissible (by decide), by rfl⟩,
    ⟨cfg 4, [], 0, cfg_admissible (by decide), by rfl⟩⟩

end Sys2Proof.Tests
end

