-- ==== Sys2Proof/Proofs/Step.lean ====
section
/-! SUPPORT. One equation of `step` for each thing that can stand first at the port. -/

namespace Sys2Proof.Machine

theorem step_idle {s : State} (h : s.port = []) : step s = .next s := by
  simp [step, takeEvent_nil h, idle_eq]

theorem step_reset {s : State} {rest : List HostEvent} (h : s.port = .reset :: rest) :
    step s = .next { s with port := rest }.release := by
  simp [step, takeEvent_cons h, hostReset_eq]

theorem step_illegal {s : State} {c : Command} {rest : List HostEvent} {cmd : Word}
    (h : s.port = .command c :: rest) (hd : decode c = .error (.illegalCommand cmd)) :
    step s = .next ({ s with port := rest }.raise .illegalCommand cmd.toNat) := by
  simp [step, takeEvent_cons h, hd, rejectCommand_eq]

theorem step_decoded {s : State} {c : Command} {rest : List HostEvent} {i : Instr}
    (h : s.port = .command c :: rest) (hd : decode c = .ok i) :
    step s = exec i { s with port := rest } := by
  simp [step, takeEvent_cons h, hd]

end Sys2Proof.Machine
end

