-- ==== Sys2Proof/Proofs/Reset.lean ====
section
/-! SUPPORT. One lemma for each field of the state after reset (10_state.md R32). -/

namespace Sys2Proof.Machine

section
variable (cfg : Config) (events : List HostEvent)

@[simp] theorem State.afterReset_config : (State.afterReset cfg events).config = cfg := rfl
@[simp] theorem State.afterReset_buf : (State.afterReset cfg events).buf = [] := rfl
@[simp] theorem State.afterReset_width : (State.afterReset cfg events).width = 0 := rfl
@[simp] theorem State.afterReset_mode : (State.afterReset cfg events).mode = .uncon := rfl
@[simp] theorem State.afterReset_port : (State.afterReset cfg events).port = events := rfl
@[simp] theorem State.afterReset_responses : (State.afterReset cfg events).responses = [] := rfl
@[simp] theorem State.afterReset_len : (State.afterReset cfg events).len = 0 := rfl

end

end Sys2Proof.Machine
end

