-- ==== Sys2Proof/Proofs/Configuration.lean ====
section
/-! The configuration is constant (10_state.md R20), and the values after reset (R32). -/

namespace Sys2Proof.Machine

@[simp] theorem State.answer_config (s : State) (r : Response) :
    (s.answer r).config = s.config := rfl

theorem Effect.config_eq {i : Instr} {s u : State} (h : Effect i s u) : u.config = s.config := by
  cases h with
  | append | pop | pack | unpack => exact State.setBuf_config ..
  | encode => exact State.beginInstance_config ..
  | clear => exact State.release_config ..

theorem exec_config {i : Instr} {s t : State} (h : exec i s = .next t) : t.config = s.config := by
  obtain ⟨u, r, hexec, hu⟩ := exec_cases i s
  have hut : u.answer r = t := by simpa [hexec] using h
  have hus : u.config = s.config := by
    obtain rfl | ⟨effect, -⟩ := hu
    · rfl
    · exact effect.config_eq
  rw [← hut, State.answer_config, hus]

theorem step_config {s t : State} (h : step s = .next t) : t.config = s.config := by
  cases hp : s.port with
  | nil =>
    cases (step_idle hp).symm.trans h
    rfl
  | cons e rest =>
    cases e with
    | reset =>
      cases (step_reset hp).symm.trans h
      exact State.release_config ..
    | command c =>
      cases hd : decode c with
      | error e =>
        cases (step_illegal hp hd).symm.trans h
        exact State.raise_config ..
      | ok i =>
        exact exec_config (s := { s with port := rest }) ((step_decoded hp hd).symm.trans h)

end Sys2Proof.Machine

open Sys2Proof.Machine

/-- Settles O54, by cases on what stands first at the port: only `exec` needs an argument, and no
`Effect` touches the configuration. -/
theorem configurationNeverChanges : Obligations.ConfigurationNeverChanges :=
  fun _ _ => step_config

/-- Settles O12: `State.afterReset` holds R32's list of values, and `State.reset` is that state at
`Config.device`. -/
theorem resetLeavesResetValues : Obligations.ResetLeavesResetValues := by
  refine ⟨fun cfg events => ?anyConfig, ?device⟩
  case anyConfig => simp
  case device => simp [State.reset]
end

