-- ==== Sys2Proof/Proofs/ReverseDecoder.lean ====
section
/-! The reverse decoder inverts the table (20_memory.md R37). -/

namespace Sys2Proof.Machine

/-- With no symbol twice in the table, the reverse decoder answers a code exactly when it is the
symbol's. -/
theorem codeOf_eq_some {cfg : Config} (h : cfg.Admissible) {x : Byte} {c : Fin 64} :
    codeOf cfg x = some c ↔ cfg.alpha.get c = x :=
  ⟨codeOf_sound, fun hx => hx ▸ codeOf_get h c⟩

theorem codeOf_isSome {cfg : Config} {x : Byte} :
    (codeOf cfg x).isSome ↔ ∃ c, cfg.alpha.get c = x := by
  simp [Option.isSome_iff_ne_none, codeOf_eq_none]

/-- The byte values with a code are the table's 64 entries, each once. -/
theorem hits_perm_entries {cfg : Config} (h : cfg.Admissible) :
    ((List.range 256).filter fun n => (codeOf cfg (BitVec.ofNat 8 n)).isSome).Perm
      ((List.finRange 64).map fun c => (cfg.alpha.get c).toNat) := by
  have hits_nodup := (List.nodup_range (n := 256)).filter
    fun n => (codeOf cfg (BitVec.ofNat 8 n)).isSome
  have entries_nodup : ((List.finRange 64).map fun c => (cfg.alpha.get c).toNat).Nodup :=
    (List.nodup_finRange 64).map fun c d hcd => h.injective c d (BitVec.eq_of_toNat_eq hcd)
  refine (List.perm_ext_iff_of_nodup hits_nodup entries_nodup).mpr fun n => ?_
  simp only [List.mem_filter, List.mem_range, codeOf_isSome, List.mem_map, List.mem_finRange,
    true_and]
  constructor
  · rintro ⟨hn, c, hc⟩
    exact ⟨c, by rw [hc, BitVec.toNat_ofNat, Nat.mod_eq_of_lt hn]⟩
  · rintro ⟨c, rfl⟩
    exact ⟨(cfg.alpha.get c).isLt, c, by rw [BitVec.ofNat_toNat, BitVec.setWidth_eq]⟩

end Sys2Proof.Machine

open Sys2Proof.Machine

/-- Settles O19: the hits are the table's entries up to order, so there are 64 of them. -/
theorem reverseDecoderInvertsTable : Obligations.ReverseDecoderInvertsTable := by
  refine fun cfg h => ⟨fun x c => codeOf_eq_some h, fun x => codeOf_eq_none, ?_⟩
  rw [(hits_perm_entries h).length_eq, List.length_map, List.length_finRange]
end

