-- ==== Sys2Proof/Proofs/ReservedForms.lean ====
section
/-! What the decoder admits keeps every reserved form out (30_encoding.md R54 to R59). -/

namespace Sys2Proof

/-- The fields the decoder admits, RSV aside: OP names a command (R59), W is a selector, a width
where OP needs one and 0 where OP has none (R56), A is 0 but for a byte operand and bit 0 of an
APPEND (R57). -/
structure LegalFields (op : BitVec 4) (w : BitVec 3) (a : Byte) : Prop where
  op_ne_zero : op ≠ 0x0
  op_ne_fifteen : op ≠ 0xF
  selector : legalSelector w = true
  width : op ∈ ([0x6, 0x7, 0x8] : List (BitVec 4)) → legalWidth w = true
  noWidth : op ∉ ([0x6, 0x7, 0x8, 0x9] : List (BitVec 4)) → w = 0
  noByte : op ∉ ([0x1, 0x2, 0x3, 0x6] : List (BitVec 4)) → a = 0
  bit : op = 0x3 → a.extractLsb' 1 7 = 0

theorem legalSelector_of_legalWidth {w : BitVec 3} (h : legalWidth w = true) :
    legalSelector w = true := by
  simp_all [legalWidth, legalSelector]

/-- Each check of the decoder gives the fields its opcode needs: a byte operand without a width, the
bit of APPEND, no operand, a width with the byte operand of PACK, a width alone, the selector of
DECODE. -/
theorem legalFields_of_decodeOp_eq_ok {op : BitVec 4} {w : BitVec 3} {a : Byte} {c : Command}
    {i : Instr} (h : decodeOp op w a c = .ok i) : LegalFields op w a := by
  unfold decodeOp at h
  split at h
  case h_15 => cases h
  all_goals
    rename_i hop
    have check := (checked_eq_ok.mp h).1
    have op_eq := congrArg (BitVec.ofNat 4) hop
    rw [BitVec.ofNat_toNat, BitVec.setWidth_eq] at op_eq
    subst op_eq
  case h_1 | h_2 =>
    obtain rfl := eq_of_beq check
    constructor <;> simp [legalSelector]
  case h_3 =>
    obtain ⟨rfl, ha⟩ : w = 0 ∧ a.extractLsb' 1 7 = 0 := by simpa using check
    constructor <;> simp [legalSelector, ha]
  case h_4 | h_5 | h_10 | h_11 | h_12 | h_13 | h_14 =>
    obtain ⟨rfl, rfl⟩ : w = 0 ∧ a = 0 := by simpa using check
    constructor <;> simp [legalSelector]
  case h_6 =>
    constructor <;> simp [legalSelector_of_legalWidth, check]
  case h_7 | h_8 =>
    obtain ⟨hw, rfl⟩ : legalWidth w = true ∧ a = 0 := by simpa using check
    constructor <;> simp [legalSelector_of_legalWidth, hw]
  case h_9 =>
    obtain ⟨hw, rfl⟩ : legalSelector w = true ∧ a = 0 := by simpa using check
    constructor <;> simp [hw]

/-- A command that decodes keeps R54 (RSV), R58 (the payload) and the rules of its fields. -/
theorem decode_eq_ok_fields {c : Command} {i : Instr} (h : decode c = .ok i) :
    rsvField c.word = 0 ∧ (opField c.word ≠ 0x8 → c.payload = []) ∧
      LegalFields (opField c.word) (wField c.word) (aField c.word) := by
  unfold decode at h
  split_ifs at h with hrsv hpayload
  exact ⟨not_not.mp hrsv, fun hop => not_not.mp fun hp => hpayload ⟨hop, hp⟩,
    legalFields_of_decodeOp_eq_ok h⟩

theorem decodeOp_eq_error_word {op : BitVec 4} {w : BitVec 3} {a : Byte} {c : Command}
    {e : DecodeError} (h : decodeOp op w a c = .error e) : e = .illegalCommand c.word := by
  unfold decodeOp at h
  split at h
  case h_15 => cases h; rfl
  all_goals exact (checked_eq_error.mp h).2.symm

/-- The one verdict of the decoder carries the command's own word (R61). -/
theorem decode_eq_error_word {c : Command} {e : DecodeError} (h : decode c = .error e) :
    e = .illegalCommand c.word := by
  unfold decode at h
  split_ifs at h
  · cases h; rfl
  · cases h; rfl
  · exact decodeOp_eq_error_word h

end Sys2Proof

open Sys2Proof

/-- Settles O5: a command that decodes has legal fields, and each reserved form contradicts one of
them; a command that does not decode is IllegalCommand with its own word. -/
theorem reservedFormsAreIllegal : Obligations.ReservedFormsAreIllegal := by
  intro c reserved
  cases h : decode c with
  | error e => rw [decode_eq_error_word h]
  | ok i =>
    exfalso
    obtain ⟨hrsv, hpayload, legal⟩ := decode_eq_ok_fields h
    obtain rsv | op0 | opF | w7 | ⟨w, op⟩ | ⟨w0, op⟩ | ⟨a, op⟩ | ⟨a, op⟩ | ⟨payload, op⟩ := reserved
    · exact rsv hrsv
    · exact legal.op_ne_zero op0
    · exact legal.op_ne_fifteen opF
    · exact absurd legal.selector (by rw [wField, w7]; decide)
    · exact w (legal.noWidth op)
    · exact absurd (legal.width op) (by rw [wField, w0]; decide)
    · exact a (legal.noByte op)
    · have bits : c.word.extractLsb' 1 7 = (aField c.word).extractLsb' 1 7 := by
        ext j hj
        simp [aField]
      exact a (bits.trans (legal.bit op))
    · exact payload (hpayload op)
end

