-- ==== Sys2Proof/Proofs/CommandWords.lean ====
section
/-! Each command has exactly one word and payload, its encoding (30_encoding.md R61, R68). -/

namespace Sys2Proof

/-- The fields of a word as weights of its value (R53). -/
theorem commandWord_toNat (op : BitVec 4) (w : BitVec 3) (a : Byte) :
    (commandWord op w a).toNat = 2 ^ 28 * op.toNat + 2 ^ 8 * w.toNat + a.toNat := by
  simp only [commandWord, BitVec.toNat_append, BitVec.toNat_ofNat]
  rw [← Nat.shiftLeft_add_eq_or_of_lt a.isLt, Nat.zero_mod, Nat.or_zero,
    ← Nat.shiftLeft_add_eq_or_of_lt w.isLt]
  simp only [Nat.shiftLeft_eq]
  ring

/-- Where the word has no width, the byte operand is added to the opcode's word. -/
theorem commandWord_no_width (op : BitVec 4) (a : Byte) :
    commandWord op 0 a = commandWord op 0 0 + a.setWidth 32 := by
  apply BitVec.eq_of_toNat_eq
  simp only [BitVec.toNat_add, BitVec.toNat_setWidth, commandWord_toNat,
    BitVec.ofNat_eq_ofNat, BitVec.toNat_ofNat]
  omega

/-- A byte with nothing above bit 0 is that bit, APPEND's operand (R57). -/
theorem ofNat_bit_zero : ∀ {a : Byte}, a.extractLsb' 1 7 = 0 →
    BitVec.ofNat 8 (a.getLsbD 0).toNat = a := by
  decide

/-- What an opcode's check admits is the encoding of the command: a field the encoder sets to zero
is one the check holds to zero. -/
theorem encode_of_decodeOp {op : BitVec 4} {w : BitVec 3} {a : Byte} {c : Command} {i : Instr}
    (payload : op ≠ 0x8 → c.payload = []) (h : decodeOp op w a c = .ok i) :
    i.wellFormed = true ∧ encode i = ⟨commandWord op w a, c.payload⟩ := by
  unfold decodeOp at h
  split at h
  case h_15 => cases h
  all_goals
    rename_i hop
    obtain ⟨check, rfl⟩ := checked_eq_ok.mp h
    have op_eq := congrArg (BitVec.ofNat 4) hop
    rw [BitVec.ofNat_toNat, BitVec.setWidth_eq] at op_eq
    subst op_eq
  case h_3 =>
    obtain ⟨rfl, ha⟩ : w = 0 ∧ a.extractLsb' 1 7 = 0 := by simpa using check
    exact ⟨rfl, by rw [encode, ofNat_bit_zero ha, payload (by decide)]; rfl⟩
  all_goals simp_all [Instr.wellFormed, encode]

theorem decode_encode {i : Instr} (h : i.wellFormed = true) : decode (encode i) = .ok i := by
  cases i with
  | append bit => cases bit <;> simp [decode, encode, decodeOp, checked]
  | _ => simp_all [decode, encode, decodeOp, checked, Instr.wellFormed]

/-- The decoder inverts the encoder on the commands: there is one word and payload for each. -/
theorem decode_eq_ok_iff {c : Command} {i : Instr} :
    decode c = .ok i ↔ i.wellFormed = true ∧ c = encode i := by
  constructor
  · intro h
    obtain ⟨hrsv, hpayload, -⟩ := decode_eq_ok_fields h
    have hop : decodeOp (opField c.word) (wField c.word) (aField c.word) c = .ok i := by
      unfold decode at h
      split_ifs at h
      exact h
    obtain ⟨hwf, henc⟩ := encode_of_decodeOp hpayload hop
    exact ⟨hwf, by rw [henc, commandWord_fields hrsv]⟩
  · rintro ⟨hwf, rfl⟩
    exact decode_encode hwf

end Sys2Proof
end

