-- ==== Sys2Proof/Proofs/AlphabetLookup.lean ====
section
/-! The alphabet lookup: CODEOF, SYMOF and the alphabets of the widths (40_alphabet_lookup.md R69 to
R71). -/

namespace Sys2Proof.Machine

theorem exec_codeof_hit {s : State} {x : Byte} {c : Fin 64} (h : codeOf s.config x = some c) :
    exec (.codeof x) s = .next (s.respond c.val []) := by
  simp only [exec, execCodeof, h]

theorem exec_codeof_miss {s : State} {x : Byte} (h : codeOf s.config x = none) :
    exec (.codeof x) s = .next (s.raise .alphabetRange x.toNat) := by
  simp only [exec, execCodeof, h]

theorem exec_symof_hit {a : Byte} (s : State) (h : a.toNat < 64) :
    exec (.symof a) s = .next (s.respond (s.config.alpha.get ⟨a.toNat, h⟩).toNat []) := by
  simp only [exec, execSymof, byteOperand, selectEntry_of_lt h, romRead]

theorem exec_symof_miss {a : Byte} (s : State) (h : 64 ≤ a.toNat) :
    exec (.symof a) s = .next (s.raise .alphabetRange a.toNat) := by
  simp only [exec, execSymof, byteOperand, selectEntry_of_le h]

/-- `VALUE` of a byte is the byte with zeros before it (00_scope.md R13). -/
theorem zext32_toNat (x : Byte) : zext32 x.toNat = x.setWidth 32 :=
  BitVec.ofNat_toNat 32 x

theorem valid_iff_entry {cfg : Config} (h : cfg.Admissible) {b : Nat} {x : Byte} :
    valid cfg b x = true ↔ ∃ c : Fin 64, c.val < 2 ^ b ∧ cfg.alpha.get c = x := by
  simp only [valid_iff_codeOf, codeOf_eq_some h, and_comm]

theorem mem_alphabet_iff {cfg : Config} {b : Nat} {x : Byte} :
    x ∈ alphabet cfg b ↔ ∃ c : Fin 64, c.val < 2 ^ b ∧ cfg.alpha.get c = x := by
  rw [alphabet, List.mem_take_iff_getElem]
  constructor
  · rintro ⟨i, hi, rfl⟩
    obtain ⟨hb, h64⟩ : i < 2 ^ b ∧ i < 64 := by simpa using hi
    exact ⟨⟨i, h64⟩, hb, rfl⟩
  · rintro ⟨c, hc, rfl⟩
    exact ⟨c.val, by simpa using hc, rfl⟩

theorem valid_iff_mem_alphabet {cfg : Config} (h : cfg.Admissible) {b : Nat} {x : Byte} :
    valid cfg b x = true ↔ x ∈ alphabet cfg b :=
  (valid_iff_entry h).trans mem_alphabet_iff.symm

theorem alphabet_eq_map (cfg : Config) (b : Nat) :
    alphabet cfg b = ((List.finRange 64).take (2 ^ b)).map cfg.alpha.get := by
  have table : cfg.alpha.toList = (List.finRange 64).map cfg.alpha.get :=
    List.ext_getElem (by simp) fun i _ _ => by simp [Vector.get]
  rw [alphabet, table, List.map_take]

/-- The alphabet of width 2 is the letters of R9 (b). -/
theorem alphabet_two {cfg : Config} (h : cfg.Admissible) :
    alphabet cfg 2 = [0x41, 0x42, 0x43, 0x44] := by
  have codes : (List.finRange 64).take (2 ^ 2) = [0, 1, 2, 3] := by decide
  obtain ⟨h0, h1, h2, h3⟩ := h.letters
  rw [alphabet_eq_map, codes]
  simp only [List.map, h0, h1, h2, h3]

theorem alphabet_one {cfg : Config} (h : cfg.Admissible) : alphabet cfg 1 = [0x41, 0x42] := by
  have codes : (List.finRange 64).take (2 ^ 1) = [0, 1] := by decide
  obtain ⟨h0, h1, -, -⟩ := h.letters
  rw [alphabet_eq_map, codes]
  simp only [List.map, h0, h1]

end Sys2Proof.Machine

open Sys2Proof Sys2Proof.Machine

/-- Settles O20: the one word is the encoding's, and the reverse decoder hits exactly the entries. -/
theorem codeofAnswersCode : Obligations.CodeofAnswersCode := by
  intro sym s admissible
  refine ⟨fun c => ?word, fun c hc => ?hit, fun hmiss => ?miss⟩
  case word =>
    rw [decode_eq_ok_iff, encode, commandWord_no_width]
    exact and_iff_right rfl
  case hit => exact exec_codeof_hit ((codeOf_eq_some admissible).mpr hc)
  case miss =>
    rw [← zext32_toNat]
    exact exec_codeof_miss (codeOf_eq_none.mpr hmiss)

/-- Settles O21: the one word is the encoding's, and the address decoder selects an entry exactly
below 64. -/
theorem symofAnswersSymbol : Obligations.SymofAnswersSymbol := by
  intro a s
  refine ⟨fun c => ?word, fun h => ?hit, fun h => ?miss⟩
  case word =>
    rw [decode_eq_ok_iff, encode, commandWord_no_width]
    exact and_iff_right rfl
  case hit =>
    rw [← zext32_toNat]
    exact exec_symof_hit s h
  case miss =>
    rw [← zext32_toNat]
    exact exec_symof_miss s h

/-- Settles O22: a valid symbol is an entry below 2^b, which the first 2^b entries are, and the
letters of R9 (b) are the first four. -/
theorem validIsFirstEntries : Obligations.ValidIsFirstEntries := by
  refine fun cfg h => ⟨fun b x _ _ => ⟨valid_iff_entry h, valid_iff_mem_alphabet h⟩,
    fun x => ?one, fun x => ?two⟩
  case one => rw [valid_iff_mem_alphabet h, alphabet_one h]
  case two => rw [valid_iff_mem_alphabet h, alphabet_two h]
end

