-- ==== Sys2Proof/Proofs/BitBuffer.lean ====
section
/-! The bit buffer: APPEND, POP, LENGTH and RENDER (41_bit_buffer.md R75 to R78). -/

namespace Sys2Proof

/-- A command with its encoding written out: that is the one word and payload it has (30_encoding.md
R61). -/
theorem decode_eq_ok_iff_of_encode {c d : Command} {i : Instr} (hwf : i.wellFormed = true)
    (hd : encode i = d) : decode c = .ok i ↔ c = d := by
  rw [decode_eq_ok_iff, hd, and_iff_right hwf]

/-- The operand of APPEND is bit 0 of its word (R57). -/
theorem encode_append (bit : Bool) :
    encode (.append bit) = ⟨0x30000000 + BitVec.ofNat 32 bit.toNat, []⟩ := by
  cases bit <;> rfl

end Sys2Proof

namespace Sys2Proof.Machine

/-! ### Values that fit `VALUE` -/

theorem saturate32_of_lt {n : Nat} (h : n < 2 ^ 32) : saturate32 n = n :=
  Nat.min_eq_left (Nat.le_sub_one_of_lt h)

theorem toNat_zext32_of_lt {n : Nat} (h : n < 2 ^ 32) : (zext32 n).toNat = n :=
  (BitVec.toNat_ofNat n 32).trans (Nat.mod_eq_of_lt h)

/-- R26 with R10: `LEN` fits `VALUE`. -/
theorem len_lt_of_consistent {s : State} (h : Safety.Consistent s) : s.len < 2 ^ 32 :=
  Nat.lt_of_le_of_lt h.len_le_cap (Nat.lt_of_le_pred (by decide) h.admissible.cap_le)

/-! ### APPEND -/

section
variable {s : State} (bit : Bool)

theorem exec_append_encoded (mode : s.mode = .encoded) :
    exec (.append bit) s = .next (s.raise .immutable 0) := by
  simp only [exec, execAppend, mode, if_true]

theorem exec_append_room (mode : s.mode = .uncon) (room : s.len + 1 ≤ s.config.cap) :
    exec (.append bit) s = .next ((s.setBuf (s.buf ++ [bit])).respond 0 []) := by
  simp only [exec, execAppend, mode, reduceCtorEq, if_false, gt_iff_lt, Nat.not_lt.mpr room]

theorem exec_append_full (mode : s.mode = .uncon) (full : s.config.cap < s.len + 1) :
    exec (.append bit) s = .next (s.raise .capacity (saturate32 (s.len + 1))) := by
  simp only [exec, execAppend, mode, reduceCtorEq, if_false, gt_iff_lt, full, if_true]

end

/-! ### POP -/

section
variable {s : State}

theorem exec_pop_encoded (mode : s.mode = .encoded) :
    exec .pop s = .next (s.raise .immutable 0) := by
  simp only [exec, execPop, mode, if_true]

theorem exec_pop_tail {pre : List Bool} {v : Bool} (mode : s.mode = .uncon)
    (tail : s.buf = pre ++ [v]) : exec .pop s = .next ((s.setBuf pre).respond v.toNat []) := by
  simp only [exec, execPop, mode, reduceCtorEq, if_false, tail, List.getLast?_concat,
    List.dropLast_concat]

theorem exec_pop_empty (mode : s.mode = .uncon) (empty : s.len = 0) :
    exec .pop s = .next (s.raise .emptySequence 0) := by
  have hbuf : s.buf = [] := List.length_eq_zero_iff.mp empty
  simp only [exec, execPop, mode, reduceCtorEq, if_false, hbuf, List.getLast?_nil]

end

/-! ### LENGTH and RENDER -/

theorem exec_length (s : State) : exec .length s = .next (s.respond s.len []) := rfl

theorem exec_render (s : State) : exec .render s = .next (s.respond 0 (s.buf.map renderBit)) := rfl

theorem renderBit_eq : renderBit = fun b => if b = false then 0x30 else 0x31 := by
  funext b
  cases b <;> rfl

end Sys2Proof.Machine

open Sys2Proof Sys2Proof.Machine

/-- Settles O25: an instance is refused first, then the room decides; a CapacityError that fits
`VALUE` does not saturate. -/
theorem appendPutsBitAtTail : Obligations.AppendPutsBitAtTail := by
  refine fun bit s => ⟨fun c => ?word, ?room, ?encoded, fun mode full fits => ?full⟩
  case word => exact decode_eq_ok_iff_of_encode rfl (encode_append bit)
  case room => exact exec_append_room bit
  case encoded => exact exec_append_encoded bit
  case full =>
    rw [exec_append_full bit mode full, saturate32_of_lt fits]
    rfl

/-- Settles O26: an instance is refused first, then the buffer has a tail bit or is empty. -/
theorem popTakesTailBit : Obligations.PopTakesTailBit := by
  refine fun s => ⟨fun c => ?word, fun pre v => ?tail, ?encoded, ?empty⟩
  case word => exact decode_eq_ok_iff_of_encode rfl rfl
  case tail => exact exec_pop_tail
  case encoded => exact exec_pop_encoded
  case empty => exact exec_pop_empty

/-- Settles O27: the invariant keeps `LEN` below 2^32, so `VALUE` is `LEN` as a number. -/
theorem lengthAnswersLen : Obligations.LengthAnswersLen := by
  refine fun s consistent => ⟨fun c => ?word, zext32 s.len, ?value, ?answer⟩
  case word => exact decode_eq_ok_iff_of_encode rfl rfl
  case value => exact toNat_zext32_of_lt (len_lt_of_consistent consistent)
  case answer => exact exec_length s

/-- Settles O28: `OUT` is the buffer, bit for byte, in its own order. -/
theorem renderEmitsBitsFromHead : Obligations.RenderEmitsBitsFromHead := by
  refine fun s => ⟨fun c => ?word, s.buf.map renderBit, ?length, fun i => ?byte, ?answer⟩
  case word => exact decode_eq_ok_iff_of_encode rfl rfl
  case length => exact List.length_map renderBit
  case byte => rw [List.getElem?_map, renderBit_eq]
  case answer => exact exec_render s
end

