-- ==== Sys2Proof/Proofs/Packer.lean ====
section
/-! The packer: PACK and UNPACK (42_packer.md R82 and R84). -/

namespace Sys2Proof

/-- The width stands at bit 8 of its word, the byte operand at bit 0 (R53). -/
theorem commandWord_eq_add (op : BitVec 4) (w : BitVec 3) (a : Byte) :
    commandWord op w a = commandWord op 0 0 + (w.setWidth 32 <<< 8) + a.setWidth 32 := by
  apply BitVec.eq_of_toNat_eq
  simp only [BitVec.toNat_add, BitVec.toNat_shiftLeft, BitVec.toNat_setWidth, Nat.shiftLeft_eq,
    commandWord_toNat, BitVec.ofNat_eq_ofNat, BitVec.toNat_ofNat]
  omega

theorem encode_pack (w : BitVec 3) (a : Byte) :
    encode (.pack w a) = ⟨0x60000000 + (w.setWidth 32 <<< 8) + a.setWidth 32, []⟩ :=
  congrArg (Command.mk · []) (commandWord_eq_add 0x6 w a)

theorem encode_unpack (w : BitVec 3) :
    encode (.unpack w) = ⟨0x70000000 + (w.setWidth 32 <<< 8), []⟩ :=
  congrArg (Command.mk · []) ((commandWord_eq_add 0x7 w 0).trans (BitVec.add_zero _))

end Sys2Proof

namespace Sys2Proof.Machine

/-! ### PACK -/

section
variable {s : State} {w : BitVec 3} (a : Byte)

/-- The mask of R82 drops no bit below the width. -/
theorem packbits_lowBits_getElem? {n i : Nat} (h : i < n) :
    (packbits n (lowBits n a.toNat))[i]? = some (a.getLsbD i) := by
  rw [packbits_getElem? _ h, Nat.testBit_mod_two_pow, decide_eq_true h, Bool.true_and,
    BitVec.testBit_toNat]

theorem exec_pack_encoded (mode : s.mode = .encoded) :
    exec (.pack w a) s = .next (s.raise .immutable 0) := by
  simp only [exec, execPack, mode, if_true]

theorem exec_pack_room (mode : s.mode = .uncon) (room : s.len + w.toNat ≤ s.config.cap) :
    exec (.pack w a) s = .next
      ((s.setBuf (s.buf ++ packbits w.toNat (lowBits w.toNat a.toNat))).respond 0 []) := by
  simp only [exec, execPack, mode, reduceCtorEq, if_false, gt_iff_lt, Nat.not_lt.mpr room]

theorem exec_pack_full (mode : s.mode = .uncon) (full : s.config.cap < s.len + w.toNat) :
    exec (.pack w a) s = .next (s.raise .capacity (saturate32 (s.len + w.toNat))) := by
  simp only [exec, execPack, mode, reduceCtorEq, if_false, gt_iff_lt, full, if_true]

end

/-! ### UNPACK -/

section
variable {s : State} {w : BitVec 3}

/-- Where only the taken bits stand, `unpackval` is the loop of R83 over all of them. -/
theorem unpackval_length (bits : List Bool) :
    unpackval bits.length bits = bits.reverse.foldl shiftIn 0 := by
  rw [unpackval, List.take_of_length_le (List.length_reverse).le]

theorem exec_unpack_encoded (mode : s.mode = .encoded) :
    exec (.unpack w) s = .next (s.raise .immutable 0) := by
  simp only [exec, execUnpack, mode, if_true]

theorem exec_unpack_tail {pre bits : List Bool} (mode : s.mode = .uncon)
    (tail : s.buf = pre ++ bits) (taken : bits.length = w.toNat) :
    exec (.unpack w) s =
      .next ((s.setBuf pre).respond (bits.reverse.foldl shiftIn 0) []) := by
  have enough : ¬ s.len < w.toNat := by simp [State.len, tail, taken]
  simp only [exec, execUnpack, mode, reduceCtorEq, if_false, enough, tail,
    dropTail_append pre taken, unpackval_append pre taken]
  rw [← taken, unpackval_length]

theorem exec_unpack_short (mode : s.mode = .uncon) (short : s.len < w.toNat) :
    exec (.unpack w) s = .next (s.raise .emptySequence s.len) := by
  simp only [exec, execUnpack, mode, reduceCtorEq, if_false, short, if_true]

end

end Sys2Proof.Machine

open Sys2Proof Sys2Proof.Machine

/-- Settles O31: an instance is refused first, then the room decides; a CapacityError that fits
`VALUE` does not saturate. -/
theorem packAppendsLowBits : Obligations.PackAppendsLowBits := by
  refine fun w a s legal => ⟨fun c => ?word,
    fun mode room => ⟨packbits w.toNat (lowBits w.toNat a.toNat), ?length, fun i => ?bit, ?room⟩,
    ?encoded, fun mode full fits => ?full⟩
  case word => exact decode_eq_ok_iff_of_encode legal (encode_pack w a)
  case length => exact packbits_length _ _
  case bit => exact packbits_lowBits_getElem? a
  case room => exact exec_pack_room a mode room
  case encoded => exact exec_pack_encoded a
  case full =>
    rw [exec_pack_full a mode full, saturate32_of_lt fits]
    rfl

/-- Settles O35: an instance is refused first, then the buffer ends in `w` bits or is shorter. -/
theorem unpackTakesTailCode : Obligations.UnpackTakesTailCode := by
  refine fun w s legal => ⟨fun c => ?word, fun pre bits => ?tail, ?encoded, ?short⟩
  case word => exact decode_eq_ok_iff_of_encode legal (encode_unpack w)
  case tail => exact exec_unpack_tail
  case encoded => exact exec_unpack_encoded
  case short => exact exec_unpack_short
end

