-- ==== Sys2Proof/Proofs/Enc.lean ====
section
/-! The bits of an instance: what `enc` is and how long it is (43_codec.md R86), and so what the
invariant says of `LEN` (10_state.md R27). -/

namespace Sys2Proof.Machine

/-- The symbol of a code below 2^w adds the code's `w` bits. -/
theorem symbolBits_get {cfg : Config} (h : cfg.Admissible) {w : Nat} {c : Fin 64}
    (hc : c.val < 2 ^ w) : symbolBits cfg w (cfg.alpha.get c) = packbits w c.val := by
  rw [symbolBits_of_codeOf w (codeOf_get h c), lowBits, Nat.mod_eq_of_lt hc]

theorem enc_map_get {cfg : Config} (h : cfg.Admissible) {w : Nat} {codes : List (Fin 64)}
    (hc : ∀ c ∈ codes, c.val < 2 ^ w) :
    enc cfg w (codes.map cfg.alpha.get) =
      (codes.reverse.map fun c => packbits w c.val).flatten := by
  rw [enc, ← List.map_reverse, List.flatMap_map, List.flatMap_def]
  congr 1
  exact List.map_congr_left fun c hmem => symbolBits_get h (hc c (List.mem_reverse.mp hmem))

/-- Each symbol of a valid text adds `w` bits. -/
theorem enc_length {cfg : Config} {w : Nat} {t : List Byte}
    (symbols : ∀ x ∈ t, valid cfg w x = true) : (enc cfg w t).length = t.length * w := by
  induction t with
  | nil => simp
  | cons x t ih =>
    obtain ⟨hx, ht⟩ := List.forall_mem_cons.mp symbols
    obtain ⟨c, -, -, bits⟩ := symbolBits_of_valid hx
    rw [enc_cons, List.length_append, ih ht, bits, packbits_length, List.length_cons,
      Nat.succ_mul]

theorem valid_get {cfg : Config} (h : cfg.Admissible) {w : Nat} {c : Fin 64}
    (hc : c.val < 2 ^ w) : valid cfg w (cfg.alpha.get c) = true :=
  (valid_iff_entry h).mpr ⟨c, hc, rfl⟩

/-- R27: the length of an instance is a whole number of symbols. -/
theorem width_dvd_len {s : State} (h : Safety.Consistent s) (mode : s.mode = .encoded) :
    s.width.toNat ∣ s.len := by
  obtain ⟨t, symbols, hbuf⟩ := h.encodes mode
  rw [State.len, hbuf, enc_length symbols]
  exact Nat.dvd_mul_left ..

end Sys2Proof.Machine

open Sys2Proof Sys2Proof.Machine

/-- Settles O38: the reverse decoder gives each symbol its own code back, and the mask of R86 drops
no bit of a code below 2^w. -/
theorem encPacksReversedText : Obligations.EncPacksReversedText := by
  refine fun cfg w codes admissible _ _ hc => ⟨enc_map_get admissible hc, ?length⟩
  case length =>
    rw [enc_length, List.length_map]
    intro x hx
    obtain ⟨c, hmem, rfl⟩ := List.mem_map.mp hx
    exact valid_get admissible (hc c hmem)
end

