-- ==== Sys2Proof/Proofs/Codec.lean ====
section
/-! The codec: ENCODE, DECODE, the accessors of an instance, and CLEAR (43_codec.md R87 to R94). -/

namespace Sys2Proof

theorem encode_encode (w : BitVec 3) (x : List Byte) :
    encode (.encode w x) = ⟨0x80000000 + (w.setWidth 32 <<< 8), x⟩ :=
  congrArg (Command.mk · x) ((commandWord_eq_add 0x8 w 0).trans (BitVec.add_zero _))

theorem encode_decode (wsel : BitVec 3) :
    encode (.decode wsel) = ⟨0x90000000 + (wsel.setWidth 32 <<< 8), []⟩ :=
  congrArg (Command.mk · []) ((commandWord_eq_add 0x9 wsel 0).trans (BitVec.add_zero _))

end Sys2Proof

namespace Sys2Proof.Machine

/-! ### ENCODE -/

section
variable {s : State} {w : BitVec 3} {x : List Byte}

/-- A text of valid symbols has no invalid one to report. -/
theorem findIdx?_invalid_eq_none {cfg : Config} {n : Nat}
    (symbols : ∀ y ∈ x, valid cfg n y = true) :
    (x.findIdx? fun y => !valid cfg n y) = none :=
  List.findIdx?_eq_none_iff.mpr fun y hy => by rw [symbols y hy, Bool.not_true]

/-- ENCODE reports the lowest index whose symbol is invalid. -/
theorem findIdx?_invalid_append {cfg : Config} {n : Nat} {pre : List Byte} {y : Byte}
    (post : List Byte) (symbols : ∀ z ∈ pre, valid cfg n z = true)
    (invalid : valid cfg n y = false) :
    ((pre ++ y :: post).findIdx? fun z => !valid cfg n z) = some pre.length := by
  rw [List.findIdx?_append, findIdx?_invalid_eq_none symbols, List.findIdx?_cons, invalid]
  simp

theorem exec_encode_encoded (mode : s.mode = .encoded) :
    exec (.encode w x) s = .next (s.raise .immutable 0) := by
  simp only [exec, execEncode, mode, if_true]

theorem exec_encode_invalid {k : Nat} (mode : s.mode = .uncon)
    (invalid : (x.findIdx? fun y => !valid s.config w.toNat y) = some k) :
    exec (.encode w x) s = .next (s.raise .invalidSymbol (saturate32 k)) := by
  simp only [exec, execEncode, mode, reduceCtorEq, if_false, widthOperand, invalid]

theorem exec_encode_full (mode : s.mode = .uncon)
    (symbols : ∀ y ∈ x, valid s.config w.toNat y = true)
    (full : s.config.cap < x.length * w.toNat) :
    exec (.encode w x) s = .next (s.raise .capacity (saturate32 (x.length * w.toNat))) := by
  simp only [exec, execEncode, mode, reduceCtorEq, if_false, widthOperand,
    findIdx?_invalid_eq_none symbols, gt_iff_lt, full, if_true]

theorem exec_encode_room (mode : s.mode = .uncon)
    (symbols : ∀ y ∈ x, valid s.config w.toNat y = true)
    (room : x.length * w.toNat ≤ s.config.cap) :
    exec (.encode w x) s =
      .next ((s.beginInstance w (enc s.config w.toNat x)).respond 0 []) := by
  simp only [exec, execEncode, mode, reduceCtorEq, if_false, widthOperand,
    findIdx?_invalid_eq_none symbols, gt_iff_lt, Nat.not_lt.mpr room]

end

/-! ### DECODE -/

section
variable {s : State} {wsel : BitVec 3}

theorem selectWidth_zero_uncon (mode : s.mode = .uncon) : selectWidth 0 s = none := by
  simp only [selectWidth, if_true, mode]

theorem selectWidth_zero_encoded (mode : s.mode = .encoded) :
    selectWidth 0 s = some s.width.toNat := by
  simp only [selectWidth, if_true, mode]

theorem selectWidth_explicit (explicit : wsel ≠ 0) : selectWidth wsel s = some wsel.toNat :=
  if_neg explicit

theorem exec_decode_no_width (width : selectWidth wsel s = none) :
    exec (.decode wsel) s = .next (s.raise .notEncoded 0) := by
  simp only [exec, execDecode, width]

theorem exec_decode_whole {n : Nat} (width : selectWidth wsel s = some n) (whole : s.len % n = 0) :
    exec (.decode wsel) s = .next (s.respond 0 (dec s.config n s.buf)) := by
  simp only [exec, execDecode, width, ne_eq, whole, not_true, if_false]

theorem exec_decode_corrupt {n : Nat} (width : selectWidth wsel s = some n)
    (corrupt : s.len % n ≠ 0) : exec (.decode wsel) s = .next (s.raise .corruptSequence s.len) := by
  simp only [exec, execDecode, width, if_pos corrupt]

end

/-! ### BITLEN, SYMWIDTH, SYMCOUNT and CLEAR -/

section
variable {s : State}

theorem exec_bitlen_encoded (mode : s.mode = .encoded) :
    exec .bitlen s = .next (s.respond s.len []) := by
  simp only [exec, execBitlen, mode, reduceCtorEq, if_false]

theorem exec_bitlen_uncon (mode : s.mode = .uncon) :
    exec .bitlen s = .next (s.raise .notEncoded 0) := by
  simp only [exec, execBitlen, mode, if_true]

theorem exec_symwidth_encoded (mode : s.mode = .encoded) :
    exec .symwidth s = .next (s.respond s.width.toNat []) := by
  simp only [exec, execSymwidth, mode, reduceCtorEq, if_false]

theorem exec_symwidth_uncon (mode : s.mode = .uncon) :
    exec .symwidth s = .next (s.raise .notEncoded 0) := by
  simp only [exec, execSymwidth, mode, if_true]

theorem exec_symcount_encoded (mode : s.mode = .encoded) :
    exec .symcount s = .next (s.respond (s.len / s.width.toNat) []) := by
  simp only [exec, execSymcount, mode, reduceCtorEq, if_false]

theorem exec_symcount_uncon (mode : s.mode = .uncon) :
    exec .symcount s = .next (s.raise .notEncoded 0) := by
  simp only [exec, execSymcount, mode, if_true]

end

theorem exec_clear (s : State) : exec .clear s = .next (s.release.respond 0 []) := rfl

end Sys2Proof.Machine

open Sys2Proof Sys2Proof.Machine

/-- Settles O39: an instance is refused first, then the lowest invalid symbol, then the room
decides. -/
theorem encodeBuildsInstance : Obligations.EncodeBuildsInstance := by
  refine fun w x s legal => ⟨fun c => ?word,
    fun mode symbols room => ⟨enc_length symbols, exec_encode_room mode symbols room⟩,
    ?encoded, ?invalid, ?full⟩
  case word => exact decode_eq_ok_iff_of_encode legal (encode_encode w x)
  case encoded => exact exec_encode_encoded
  case invalid =>
    rintro pre post y mode rfl symbols invalid
    exact exec_encode_invalid mode (findIdx?_invalid_append post symbols invalid)
  case full => exact exec_encode_full

/-- Settles O42: the selector gives the width, by the mode where it is 0, and the width divides
`LEN` or not; by the invariant that of an instance does. -/
theorem decodeAnswersText : Obligations.DecodeAnswersText := by
  refine fun wsel s legal => ⟨fun c => ?word, ?uncon, ?encoded, ?whole, ?corrupt⟩
  case word => exact decode_eq_ok_iff_of_encode legal (encode_decode wsel)
  case uncon =>
    rintro rfl mode
    exact exec_decode_no_width (selectWidth_zero_uncon mode)
  case encoded =>
    rintro rfl mode consistent
    exact exec_decode_whole (selectWidth_zero_encoded mode)
      (Nat.mod_eq_zero_of_dvd (width_dvd_len consistent mode))
  case whole => exact fun explicit => exec_decode_whole (selectWidth_explicit explicit)
  case corrupt => exact fun explicit => exec_decode_corrupt (selectWidth_explicit explicit)

/-- Settles O43: the invariant keeps `LEN` below 2^32, so `VALUE` is `LEN` as a number. -/
theorem bitlenAnswersLen : Obligations.BitlenAnswersLen := by
  refine fun s consistent => ⟨fun c => ?word, fun mode => ⟨zext32 s.len, ?value, ?encoded⟩, ?uncon⟩
  case word => exact decode_eq_ok_iff_of_encode rfl rfl
  case value => exact toNat_zext32_of_lt (len_lt_of_consistent consistent)
  case encoded => exact exec_bitlen_encoded mode
  case uncon => exact exec_bitlen_uncon

/-- Settles O44: the mode decides, and 3 bits fit `VALUE`. -/
theorem symwidthAnswersWidth : Obligations.SymwidthAnswersWidth := by
  refine fun s => ⟨fun c => ?word, fun mode => ?encoded, ?uncon⟩
  case word => exact decode_eq_ok_iff_of_encode rfl rfl
  case encoded =>
    rw [← BitVec.ofNat_toNat]
    exact exec_symwidth_encoded mode
  case uncon => exact exec_symwidth_uncon

/-- Settles O45: by the invariant `LEN` is a whole number of symbols and below 2^32, so the quotient
is exact and fits `VALUE`. -/
theorem symcountAnswersSymbols : Obligations.SymcountAnswersSymbols := by
  intro s consistent
  have value : (zext32 (s.len / s.width.toNat)).toNat = s.len / s.width.toNat :=
    toNat_zext32_of_lt (Nat.lt_of_le_of_lt (Nat.div_le_self ..) (len_lt_of_consistent consistent))
  refine ⟨fun c => ?word, fun mode => ⟨zext32 (s.len / s.width.toNat), value, ?product, ?encoded⟩,
    ?uncon⟩
  case word => exact decode_eq_ok_iff_of_encode rfl rfl
  case product => rw [value, Nat.div_mul_cancel (width_dvd_len consistent mode)]
  case encoded => exact exec_symcount_encoded mode
  case uncon => exact exec_symcount_uncon

/-- Settles O46: CLEAR reads nothing of the state, and `State.release` is its effect. -/
theorem clearEndsInstance : Obligations.ClearEndsInstance :=
  fun s => ⟨fun _ => decode_eq_ok_iff_of_encode rfl rfl, exec_clear s⟩
end

