-- ==== Sys2Proof/Proofs/ModeTransitions.lean ====
section
/-! The mode transitions (43_codec.md R98). -/

namespace Sys2Proof.Machine

theorem statusCode_ne_okStatus (e : ErrorKind) : statusCode e ≠ okStatus := by
  cases e <;> decide

theorem Effect.responses_eq {i : Instr} {s u : State} (h : Effect i s u) :
    u.responses = s.responses := by
  cases h with
  | append | pop | pack | unpack => exact State.setBuf_responses ..
  | encode => exact State.beginInstance_responses ..
  | clear => exact State.release_responses ..

/-- Only ENCODE and CLEAR write MODE and WIDTH. -/
theorem Effect.mode_width_eq {i : Instr} {s u : State} (h : Effect i s u) (clear : i ≠ .clear)
    (encode : ∀ w x, i ≠ .encode w x) : u.mode = s.mode ∧ u.width = s.width := by
  cases h with
  | append | pop | pack | unpack => exact ⟨State.setBuf_mode .., State.setBuf_width ..⟩
  | encode w x => exact absurd rfl (encode w x)
  | clear => exact absurd rfl clear

theorem exec_mode_width {i : Instr} {s t : State} (h : exec i s = .next t) (clear : i ≠ .clear)
    (encode : ∀ w x, i ≠ .encode w x) : t.mode = s.mode ∧ t.width = s.width := by
  obtain ⟨u, r, hexec, rfl | ⟨effect, -⟩⟩ := exec_cases i s
  all_goals cases hexec.symm.trans h
  · exact ⟨rfl, rfl⟩
  · exact effect.mode_width_eq clear encode

/-- ENCODE fails, or leaves the new instance. -/
theorem exec_encode_cases (w : BitVec 3) (x : List Byte) (s : State) :
    (∃ e info, exec (.encode w x) s = .next (s.raise e info)) ∨
      exec (.encode w x) s =
        .next ((s.beginInstance w (enc s.config w.toNat x)).respond 0 []) := by
  cases mode : s.mode with
  | encoded => exact .inl ⟨_, _, exec_encode_encoded mode⟩
  | uncon =>
    cases hf : x.findIdx? fun y => !valid s.config w.toNat y with
    | some k => exact .inl ⟨_, _, exec_encode_invalid mode hf⟩
    | none =>
      have symbols : ∀ y ∈ x, valid s.config w.toNat y = true := by
        simpa using List.findIdx?_eq_none_iff.mp hf
      by_cases full : s.config.cap < x.length * w.toNat
      · exact .inl ⟨_, _, exec_encode_full mode symbols full⟩
      · exact .inr (exec_encode_room mode symbols (Nat.le_of_not_lt full))

/-- ENCODE succeeds exactly when it begins an instance. -/
theorem exec_encode_status {w : BitVec 3} {x : List Byte} {s t : State} {r : Response}
    (h : exec (.encode w x) s = .next t) (hr : t.responses = s.responses ++ [r]) :
    (r.status ≠ okStatus ∧ t.mode = s.mode) ∨
      (r.status = okStatus ∧ t.mode = .encoded ∧ t.width = w) := by
  obtain ⟨e, info, fails⟩ | succeeds := exec_encode_cases w x s
  · cases fails.symm.trans h
    obtain rfl : _ = r := by simpa using hr
    exact .inl ⟨statusCode_ne_okStatus e, rfl⟩
  · cases succeeds.symm.trans h
    obtain rfl : _ = r := by simpa using hr
    exact .inr ⟨rfl, rfl, rfl⟩

/-- The commands that write the buffer, CLEAR aside, are refused while an instance exists. -/
theorem exec_immutable {i : Instr} {s : State} (mode : s.mode = .encoded)
    (writes : i = .pop ∨ (∃ b, i = .append b) ∨ (∃ w a, i = .pack w a) ∨ (∃ w, i = .unpack w) ∨
      ∃ w x, i = .encode w x) : exec i s = .next (s.raise .immutable 0) := by
  obtain rfl | ⟨b, rfl⟩ | ⟨w, a, rfl⟩ | ⟨w, rfl⟩ | ⟨w, x, rfl⟩ := writes
  · exact exec_pop_encoded mode
  · exact exec_append_encoded b mode
  · exact exec_pack_encoded a mode
  · exact exec_unpack_encoded mode
  · exact exec_encode_encoded mode

end Sys2Proof.Machine

open Sys2Proof Sys2Proof.Machine

/-- Settles O50, one row of R98 after the other: ENCODE by its outcome, CLEAR and the writing
commands by their one equation, the others because no effect of theirs touches the mode. -/
theorem modeTransitionsAreThese : Obligations.ModeTransitionsAreThese := by
  refine ⟨fun i s t r h hr => ⟨?begins, ?fails, ?clear, ?immutable, exec_mode_width h⟩, ?reset⟩
  case begins =>
    rintro w x rfl mode ok
    obtain ⟨error, -⟩ | ⟨-, begun⟩ := exec_encode_status h hr
    · exact absurd ok error
    · exact begun
  case fails =>
    rintro w x rfl mode error
    obtain ⟨-, stays⟩ | ⟨ok, -⟩ := exec_encode_status h hr
    · exact stays.trans mode
    · exact absurd ok error
  case clear =>
    rintro rfl
    cases (exec_clear s).symm.trans h
    obtain rfl : _ = r := by simpa using hr
    exact ⟨rfl, rfl⟩
  case immutable =>
    intro mode writes
    cases (exec_immutable mode writes).symm.trans h
    obtain rfl : _ = r := by simpa using hr
    exact ⟨rfl, mode⟩
  case reset =>
    intro s t rest hp h
    cases (step_reset hp).symm.trans h
    exact State.release_mode _
end

