-- ==== Sys2Proof/Proofs/FailingCommands.lean ====
section
/-! How a command can fail: it raises an error and does nothing else (60_exceptions.md R101), and
the first failing check in the order of R102 names the error. -/

namespace Sys2Proof.Machine

/-- A decoded command ends in one of two ways: it raises an error in the state it found, or it
succeeds. -/
inductive Ending (s : State) : Host.Outcome State Fault Refusal → Prop where
  | raises (e : ErrorKind) (info : Nat) : Ending s (.next (s.raise e info))
  | succeeds (u : State) (v : Nat) (out : List Byte) (same : u.responses = s.responses) :
      Ending s (.next (u.respond v out))

/-- LENGTH, RENDER and CLEAR cannot fail; every other command is split as its rule is, by what
stands in the table, by the mode, by the room or by the buffer. -/
theorem exec_ending (i : Instr) (s : State) : Ending s (exec i s) := by
  have setBuf_respond (b : List Bool) (v : Nat) : Ending s (.next ((s.setBuf b).respond v [])) :=
    .succeeds _ v [] (State.setBuf_responses s b)
  have respond (v : Nat) (out : List Byte) : Ending s (.next (s.respond v out)) :=
    .succeeds s v out rfl
  cases i with
  | codeof x =>
    cases entry : codeOf s.config x with
    | none => exact exec_codeof_miss entry ▸ .raises ..
    | some c => exact exec_codeof_hit entry ▸ respond ..
  | symof a =>
    obtain range | miss := Nat.lt_or_ge a.toNat 64
    · exact exec_symof_hit s range ▸ respond ..
    · exact exec_symof_miss s miss ▸ .raises ..
  | append b =>
    cases mode : s.mode with
    | encoded => exact exec_append_encoded b mode ▸ .raises ..
    | uncon =>
      obtain full | room := Nat.lt_or_ge s.config.cap (s.len + 1)
      · exact exec_append_full b mode full ▸ .raises ..
      · exact exec_append_room b mode room ▸ setBuf_respond ..
  | pop =>
    cases mode : s.mode with
    | encoded => exact exec_pop_encoded mode ▸ .raises ..
    | uncon =>
      obtain empty | ⟨pre, v, tail⟩ := List.eq_nil_or_concat' s.buf
      · exact exec_pop_empty mode (List.length_eq_zero_iff.mpr empty) ▸ .raises ..
      · exact exec_pop_tail mode tail ▸ setBuf_respond ..
  | length => exact exec_length s ▸ respond ..
  | pack w a =>
    cases mode : s.mode with
    | encoded => exact exec_pack_encoded a mode ▸ .raises ..
    | uncon =>
      obtain full | room := Nat.lt_or_ge s.config.cap (s.len + w.toNat)
      · exact exec_pack_full a mode full ▸ .raises ..
      · exact exec_pack_room a mode room ▸ setBuf_respond ..
  | unpack w =>
    cases mode : s.mode with
    | encoded => exact exec_unpack_encoded mode ▸ .raises ..
    | uncon =>
      obtain short | enough := Nat.lt_or_ge s.len w.toNat
      · exact exec_unpack_short mode short ▸ .raises ..
      · obtain ⟨pre, bits, tail, taken⟩ := exists_append_of_le enough
        exact exec_unpack_tail mode tail taken ▸ setBuf_respond ..
  | encode w x =>
    obtain ⟨e, info, fails⟩ | begins := exec_encode_cases w x s
    · exact fails ▸ .raises e info
    · exact begins ▸ .succeeds _ 0 [] (State.beginInstance_responses ..)
  | decode w =>
    cases width : selectWidth w s with
    | none => exact exec_decode_no_width width ▸ .raises ..
    | some n =>
      obtain whole | corrupt := eq_or_ne (s.len % n) 0
      · exact exec_decode_whole width whole ▸ respond ..
      · exact exec_decode_corrupt width corrupt ▸ .raises ..
  | bitlen =>
    cases mode : s.mode with
    | encoded => exact exec_bitlen_encoded mode ▸ respond ..
    | uncon => exact exec_bitlen_uncon mode ▸ .raises ..
  | symwidth =>
    cases mode : s.mode with
    | encoded => exact exec_symwidth_encoded mode ▸ respond ..
    | uncon => exact exec_symwidth_uncon mode ▸ .raises ..
  | symcount =>
    cases mode : s.mode with
    | encoded => exact exec_symcount_encoded mode ▸ respond ..
    | uncon => exact exec_symcount_uncon mode ▸ .raises ..
  | render => exact exec_render s ▸ respond ..
  | clear => exact exec_clear s ▸ .succeeds _ 0 [] (State.release_responses s)

/-- Performing a command ends as `Ending` says, in the state past its event: a word that does not
decode raises IllegalCommand. -/
theorem step_ending {s : State} {c : Command} {rest : List HostEvent}
    (hp : s.port = .command c :: rest) : Ending { s with port := rest } (step s) := by
  cases hd : decode c with
  | error e => exact step_illegal hp hd ▸ .raises ..
  | ok i => exact step_decoded hp hd ▸ exec_ending i _

/-- The commands that need an instance are refused while there is none. -/
theorem exec_notEncoded {i : Instr} {s : State} (mode : s.mode = .uncon)
    (needs : i = .decode 0 ∨ i = .bitlen ∨ i = .symwidth ∨ i = .symcount) :
    exec i s = .next (s.raise .notEncoded 0) := by
  obtain rfl | rfl | rfl | rfl := needs
  · exact exec_decode_no_width (selectWidth_zero_uncon mode)
  · exact exec_bitlen_uncon mode
  · exact exec_symwidth_uncon mode
  · exact exec_symcount_uncon mode

end Sys2Proof.Machine

open Sys2Proof Sys2Proof.Machine

/-- Settles O15: a command that does not succeed has raised an error, and `State.raise` only adds a
response without OUT. -/
theorem failingCommandWritesNoState : Obligations.FailingCommandWritesNoState := by
  intro s c rest hp
  have ending := step_ending hp
  generalize step s = outcome at ending ⊢
  cases ending with
  | raises e info => exact ⟨_, _, rfl, State.raise_responses .., fun _ => ⟨rfl, rfl⟩⟩
  | succeeds u v out same =>
    have responded := same ▸ State.respond_responses u v out
    exact ⟨_, _, rfl, responded, fun fails => absurd rfl fails⟩

/-- Settles O18: the mode is looked at before anything else, and ENCODE's symbols before its room,
so the room hypothesis of the last clause is not used. -/
theorem errorChecksInOrder : Obligations.ErrorChecksInOrder := by
  refine ⟨fun s c rest e hp hd => ?illegal, fun s i => exec_immutable, fun s i => exec_notEncoded,
    fun s w pre post y mode symbols invalid _ => ?invalidSymbol⟩
  case illegal => exact ⟨_, _, step_illegal hp hd, rfl, rfl⟩
  case invalidSymbol =>
    exact exec_encode_invalid mode (findIdx?_invalid_append post symbols invalid)
end

