-- ==== Sys2Proof/Proofs/ResetEvent.lean ====
section
/-! The reset event (70_reset_and_hazards.md R115). -/

open Sys2Proof.Machine

/-- Settles O10: the step is `State.release` in the state past the event, and `State.release` writes
R32's values and nothing else. -/
theorem resetEventRestoresResetValues : Obligations.ResetEventRestoresResetValues :=
  fun _ _ hp => step_reset hp
end

