-- ==== Sys2Proof/Proofs/LegalWords.lean ====
section
/-! The decoder and the encoder are inverse to each other (30_encoding.md R61, R68), and the words
the decoder admits are counted (R61). -/

namespace Sys2Proof

/-- Every value of a byte operand. -/
def allBytes : List Byte := (List.finRange 256).map BitVec.ofFin

/-- The bit-widths (00_scope.md R7). -/
def allWidths : List (BitVec 3) := [1, 2, 3, 4, 5, 6]

/-- The commands with the byte operand `a`, at every width where there is one. -/
def byteCommands (a : Byte) : List Instr :=
  .codeof a :: .symof a :: allWidths.map (.pack · a)

/-- The commands without a byte operand, the text of ENCODE left out. -/
def bytelessCommands : List Instr :=
  [.append false, .append true, .pop, .length, .decode 0, .bitlen, .symwidth, .symcount, .render,
    .clear] ++ allWidths.flatMap fun w => [.unpack w, .encode w [], .decode w]

/-- One command for each legal word: every command but the ENCODEs of a text that is not empty. -/
def textlessCommands : List Instr := allBytes.flatMap byteCommands ++ bytelessCommands

theorem mem_allBytes (a : Byte) : a ∈ allBytes :=
  List.mem_map.mpr ⟨a.toFin, List.mem_finRange _, rfl⟩

theorem allBytes_nodup : allBytes.Nodup :=
  (List.nodup_finRange 256).map fun _ _ h => congrArg BitVec.toFin h

theorem mem_allWidths : ∀ {w : BitVec 3}, w ∈ allWidths ↔ legalWidth w = true := by decide

theorem mem_selectors : ∀ {w : BitVec 3}, w ∈ 0 :: allWidths ↔ legalSelector w = true := by decide

theorem mem_byteCommands {a : Byte} {i : Instr} :
    i ∈ byteCommands a ↔
      i = .codeof a ∨ i = .symof a ∨ ∃ w, legalWidth w = true ∧ .pack w a = i := by
  simp [byteCommands, mem_allWidths]

theorem byteCommands_nodup (a : Byte) : (byteCommands a).Nodup := by
  simp [byteCommands, allWidths]

/-- The byte operand of a command is its own. -/
theorem byteCommands_disjoint {a b : Byte} (h : a ≠ b) :
    (byteCommands a).Disjoint (byteCommands b) := by
  intro i ha hb
  rw [mem_byteCommands] at ha hb
  obtain rfl | rfl | ⟨w, -, rfl⟩ := ha <;> simp [h, h.symm] at hb

theorem bytelessCommands_disjoint (a : Byte) : (byteCommands a).Disjoint bytelessCommands := by
  intro i ha hb
  rw [mem_byteCommands] at ha
  obtain rfl | rfl | ⟨w, -, rfl⟩ := ha <;> simp [bytelessCommands] at hb

theorem textlessCommands_nodup : textlessCommands.Nodup := by
  have bytes : (allBytes.flatMap byteCommands).Nodup :=
    List.nodup_flatMap.mpr
      ⟨fun a _ => byteCommands_nodup a, allBytes_nodup.imp byteCommands_disjoint⟩
  have disjoint : (allBytes.flatMap byteCommands).Disjoint bytelessCommands := by
    intro i hi hb
    obtain ⟨a, -, ha⟩ := List.mem_flatMap.mp hi
    exact bytelessCommands_disjoint a ha hb
  exact bytes.append (by decide) disjoint

theorem textlessCommands_length : textlessCommands.length = 2076 := by
  have bytes : (allBytes.flatMap byteCommands).length = 256 * 8 := by
    have each (a : Byte) : (byteCommands a).length = 8 := rfl
    simp only [List.length_flatMap, each, List.map_const', List.sum_replicate, allBytes,
      List.length_map, List.length_finRange, smul_eq_mul]
  rw [textlessCommands, List.length_append, bytes]
  rfl

theorem mem_textlessCommands {i : Instr} :
    i ∈ textlessCommands ↔ i.wellFormed = true ∧ (encode i).payload = [] := by
  simp only [textlessCommands, List.mem_append, List.mem_flatMap, mem_byteCommands,
    bytelessCommands]
  cases i
  case decode wsel => simpa [Instr.wellFormed, encode] using mem_selectors (w := wsel)
  all_goals simp [Instr.wellFormed, encode, mem_allBytes, mem_allWidths]

/-- The encoding is injective on the commands, since the decoder undoes it. -/
theorem encode_injective {i j : Instr} (hi : i.wellFormed = true) (hj : j.wellFormed = true)
    (h : encode i = encode j) : i = j := by
  have decoded := (decode_encode hi).symm.trans (h ▸ decode_encode hj)
  exact Except.ok.inj decoded

theorem command_eq {c d : Command} (word : c.word = d.word) (payload : c.payload = d.payload) :
    c = d := by
  cases c
  cases d
  exact congrArg₂ Command.mk word payload

theorem decode_of_encode_eq {i : Instr} {c : Command} (wellFormed : i.wellFormed = true)
    (h : encode i = c) : decode c = .ok i :=
  (decode_eq_ok_iff_of_encode wellFormed h).mpr rfl

/-- A command and the textless one with its word. -/
theorem exists_textless {i : Instr} (h : i.wellFormed = true) :
    ∃ j ∈ textlessCommands, (encode j).word = (encode i).word := by
  cases i
  case encode w t => exact ⟨.encode w [], mem_textlessCommands.mpr ⟨h, rfl⟩, rfl⟩
  all_goals exact ⟨_, mem_textlessCommands.mpr ⟨h, rfl⟩, rfl⟩

end Sys2Proof

open Sys2Proof

/-- Settles O2, by `decode_encode`: the fields of the word put together are the operands. -/
theorem decodeOfEncode : Obligations.DecodeOfEncode :=
  fun _ => decode_encode

/-- Settles O3: `decode_eq_ok_iff` from left to right, the decoder dropping no bit. -/
theorem encodeOfDecode : Obligations.EncodeOfDecode := by
  intro c i h
  obtain ⟨wellFormed, rfl⟩ := decode_eq_ok_iff.mp h
  exact ⟨wellFormed, rfl⟩

/-- Settles O1: each word is the encoding of its command. -/
theorem listedWordsDecode : Obligations.ListedWordsDecode := by
  refine ⟨?_, ?_, ?_, ?_, ?_, ?_, ?_, ?_, ?_, ?_, ?_, ?_, ?_, ?_⟩
  all_goals exact decode_of_encode_eq rfl rfl

/-- Settles O4: the words of the textless commands. No word is there twice, as the encoding of a
command with an empty payload is its word, and a word decodes with some payload exactly when it is
that of a command. -/
theorem legalWordsAre2076 : Obligations.LegalWordsAre2076 := by
  refine ⟨textlessCommands.map fun i => (encode i).word, ?nodup, ?length, fun w => ?legal⟩
  case nodup =>
    refine textlessCommands_nodup.map_on fun i hi j hj hword => ?_
    obtain ⟨wfi, pi⟩ := mem_textlessCommands.mp hi
    obtain ⟨wfj, pj⟩ := mem_textlessCommands.mp hj
    exact encode_injective wfi wfj (command_eq hword (pi.trans pj.symm))
  case length => rw [List.length_map, textlessCommands_length]
  case legal =>
    simp only [decode_eq_ok_iff, List.mem_map]
    constructor
    · rintro ⟨i, hi, rfl⟩
      exact ⟨_, i, (mem_textlessCommands.mp hi).1, rfl⟩
    · rintro ⟨t, i, wellFormed, h⟩
      obtain ⟨j, hj, hword⟩ := exists_textless wellFormed
      exact ⟨j, hj, hword.trans (congrArg Command.word h).symm⟩
end

