-- ==== Sys2Proof/Proofs/StepCases.lean ====
section
/-! What a step can do, said once (00_scope.md R17; 60_exceptions.md R112). -/

namespace Sys2Proof.Machine

/-- The four kinds of step, by what stands first at the port. -/
inductive StepCase (s : State) : Host.Outcome State Fault Refusal → Prop where
  | idle (port : s.port = []) : StepCase s (.next s)
  | reset {rest : List HostEvent} (port : s.port = .reset :: rest) :
      StepCase s (.next { s with port := rest }.release)
  | illegal {c : Command} {rest : List HostEvent} (port : s.port = .command c :: rest)
      (illegal : decode c = .error (.illegalCommand c.word)) :
      StepCase s (.next ({ s with port := rest }.raise .illegalCommand c.word.toNat))
  | decoded {c : Command} {rest : List HostEvent} {i : Instr}
      {o : Host.Outcome State Fault Refusal} (port : s.port = .command c :: rest)
      (legal : decode c = .ok i) (performed : exec i { s with port := rest } = o) : StepCase s o

theorem step_case {s : State} {o : Host.Outcome State Fault Refusal} (h : step s = o) :
    StepCase s o := by
  cases hp : s.port with
  | nil => exact (step_idle hp).symm.trans h ▸ .idle hp
  | cons e rest =>
    cases e with
    | reset => exact (step_reset hp).symm.trans h ▸ .reset hp
    | command c =>
      cases hd : decode c with
      | error e =>
        obtain rfl := decode_eq_error_word hd
        exact (step_illegal hp hd).symm.trans h ▸ .illegal hp hd
      | ok i => exact .decoded hp hd ((step_decoded hp hd).symm.trans h)

end Sys2Proof.Machine

open Sys2Proof Sys2Proof.Machine

/-- Settles O8, by the step's equation for a command that decodes. -/
theorem stepRunsDecodedCommand : Obligations.StepRunsDecodedCommand :=
  fun _ _ _ _ => step_decoded

/-- Settles O9: the decoder's verdict carries the command's own word, which `VALUE` holds whole. -/
theorem illegalCommandAnswersItsWord : Obligations.IllegalCommandAnswersItsWord := by
  intro s c rest e hp hd
  obtain rfl := decode_eq_error_word hd
  rw [step_illegal hp hd, State.raise, zext32, BitVec.ofNat_toNat, BitVec.setWidth_eq]
  rfl

/-- Settles O11, by the step's equation for an empty port. -/
theorem idleBlockHoldsItsState : Obligations.IdleBlockHoldsItsState :=
  fun _ => step_idle

/-- Settles O13: each of the four kinds of step ends in a next state. -/
theorem everyStepHasANextState : Obligations.EveryStepHasANextState := by
  intro s
  have kind := step_case (s := s) rfl
  generalize step s = o at kind ⊢
  cases kind with
  | idle | reset | illegal => exact ⟨_, rfl⟩
  | @decoded c rest i _ _ _ performed =>
    obtain ⟨u, r, hexec, -⟩ := exec_cases i { s with port := rest }
    exact ⟨_, performed.symm.trans hexec⟩
end

