-- ==== Sys2Proof/Proofs/Invariant.lean ====
section
/-! The invariant of the reachable states (10_state.md R26 to R28): it holds after reset, and every
step keeps it. -/

namespace Sys2Proof.Safety

open Sys2Proof.Machine

/-- What the host presents and what it has been answered are no part of the invariant. -/
theorem Consistent.of_same_block {s t : State} (h : Consistent s) (config : t.config = s.config)
    (buf : t.buf = s.buf) (width : t.width = s.width) (mode : t.mode = s.mode) :
    Consistent t := by
  obtain ⟨admissible, len_le, width_zero, width_legal, encodes⟩ := h
  constructor <;> simpa only [State.len, config, buf, width, mode]

/-- In UNCON mode the invariant asks for WIDTH 0 and for room. -/
theorem consistent_of_uncon {s : State} (admissible : s.config.Admissible)
    (room : s.len ≤ s.config.cap) (width : s.width = 0) (mode : s.mode = .uncon) :
    Consistent s where
  admissible := admissible
  len_le_cap := room
  width_zero_iff := iff_of_true width mode
  width_legal encoded := by simp [mode] at encoded
  encodes encoded := by simp [mode] at encoded

theorem consistent_afterReset {cfg : Config} (h : cfg.Admissible) (events : List HostEvent) :
    Consistent (State.afterReset cfg events) :=
  consistent_of_uncon h (Nat.zero_le _) rfl rfl

theorem consistent_release {s : State} (h : s.config.Admissible) : Consistent s.release :=
  consistent_of_uncon h (Nat.zero_le _) rfl rfl

/-- A scratch buffer that still fits is consistent. -/
theorem Consistent.setBuf {s : State} (h : Consistent s) (mode : s.mode = .uncon) {b : List Bool}
    (room : b.length ≤ s.config.cap) : Consistent (s.setBuf b) :=
  consistent_of_uncon h.admissible room (h.width_zero_iff.mpr mode) mode

theorem ne_zero_of_legalWidth {w : BitVec 3} (h : legalWidth w = true) : w ≠ 0 := by
  rintro rfl
  exact absurd h (by decide)

/-- A new instance is consistent: its text is the one encoded. -/
theorem consistent_beginInstance {s : State} {w : BitVec 3} {x : List Byte}
    (admissible : s.config.Admissible) (legal : legalWidth w = true)
    (symbols : ∀ y ∈ x, valid s.config w.toNat y = true)
    (room : x.length * w.toNat ≤ s.config.cap) :
    Consistent (s.beginInstance w (enc s.config w.toNat x)) where
  admissible := admissible
  len_le_cap := by simpa [enc_length symbols] using room
  width_zero_iff := iff_of_false (ne_zero_of_legalWidth legal) (by simp)
  width_legal _ := legal
  encodes _ := ⟨x, symbols, rfl⟩

theorem consistent_of_effect {i : Instr} {s u : State} (effect : Effect i s u)
    (wellFormed : i.wellFormed = true) (h : Consistent s) : Consistent u := by
  cases effect with
  | append b mode room => exact h.setBuf mode (by simpa [State.len] using room)
  | pop pre v mode tail =>
    have shorter : pre.length ≤ s.len := by simp [State.len, tail]
    exact h.setBuf mode (shorter.trans h.len_le_cap)
  | pack w a mode room => exact h.setBuf mode (by simpa [State.len] using room)
  | unpack w pre bits mode tail =>
    have shorter : pre.length ≤ s.len := by simp [State.len, tail]
    exact h.setBuf mode (shorter.trans h.len_le_cap)
  | encode w x mode symbols room =>
    exact consistent_beginInstance h.admissible wellFormed symbols room
  | clear => exact consistent_release h.admissible

/-- A well-formed command keeps the invariant: it changes nothing but the answers, or it has one of
the effects. -/
theorem exec_consistent {i : Instr} {s t : State} (wellFormed : i.wellFormed = true)
    (h : Consistent s) (performed : exec i s = .next t) : Consistent t := by
  obtain ⟨u, r, hexec, rfl | ⟨effect, -⟩⟩ := exec_cases i s
  all_goals cases hexec.symm.trans performed
  · exact h.of_same_block rfl rfl rfl rfl
  · exact (consistent_of_effect effect wellFormed h).of_same_block rfl rfl rfl rfl

theorem step_consistent {s t : State} (h : Consistent s) (hstep : step s = .next t) :
    Consistent t := by
  cases step_case hstep with
  | idle => exact h
  | reset => exact consistent_release h.admissible
  | illegal => exact h.of_same_block rfl rfl rfl rfl
  | @decoded c rest i _ port legal performed =>
    have past : Consistent { s with port := rest } := h.of_same_block rfl rfl rfl rfl
    exact exec_consistent (decode_eq_ok_iff.mp legal).1 past performed

/-- A run of one more step is a step and then the run. -/
theorem steps_succ_eq_next {n : Nat} {s t : State} (h : steps (n + 1) s = .next t) :
    ∃ u, step s = .next u ∧ steps n u = .next t := by
  rw [steps] at h
  split at h
  · exact ⟨_, ‹_›, h⟩
  · cases h
  · cases h

theorem steps_consistent {n : Nat} {s t : State} (h : Consistent s)
    (hsteps : steps n s = .next t) : Consistent t := by
  induction n generalizing s with
  | zero => cases hsteps; exact h
  | succ n ih =>
    obtain ⟨u, first, others⟩ := steps_succ_eq_next hsteps
    exact ih (step_consistent h first) others

theorem Reachable.consistent {s : State} (h : Reachable s) : Consistent s := by
  obtain ⟨cfg, events, n, admissible, run⟩ := h
  exact steps_consistent (consistent_afterReset admissible events) run

theorem pos_of_legalWidth {w : BitVec 3} (h : legalWidth w = true) : 0 < w.toNat :=
  Nat.pos_of_ne_zero fun zero => ne_zero_of_legalWidth h (BitVec.eq_of_toNat_eq zero)

end Sys2Proof.Safety

open Sys2Proof Sys2Proof.Machine Sys2Proof.Safety

/-- Settles O57, by the four kinds of step; a command that decodes is well formed, so that a new
instance has a legal width. -/
theorem everyStepKeepsInvariant : Obligations.EveryStepKeepsInvariant :=
  fun _ _ => step_consistent

/-- Settles O58: after reset the mode is UNCON, WIDTH is 0 and the buffer is empty. -/
theorem invariantHoldsAtReset : Obligations.InvariantHoldsAtReset :=
  ⟨consistent_afterReset Config.device_admissible [],
    fun _ events admissible => consistent_afterReset admissible events⟩

/-- Settles O59, by the invariant: an instance is the encoding of a text, each symbol of which adds
WIDTH bits. -/
theorem reachableStatesAreConsistent : Obligations.ReachableStatesAreConsistent := by
  intro s reachable
  have consistent := reachable.consistent
  refine ⟨consistent.len_le_cap, consistent.width_zero_iff, fun mode => ?encoded⟩
  obtain ⟨x, symbols, hbuf⟩ := consistent.encodes mode
  have hlen : s.len = x.length * s.width.toNat := by rw [State.len, hbuf, enc_length symbols]
  have hpos := pos_of_legalWidth (consistent.width_legal mode)
  refine ⟨?whole, x, symbols, hbuf, ?count⟩
  case whole => rw [hlen, Nat.mul_mod_left]
  case count => rw [hlen, Nat.mul_div_cancel _ hpos]
end

