-- ==== Sys2Proof/Proofs/Outcomes.lean ====
section
/-! What each command can do, row by row: the errors of 60_exceptions.md R99, the answers of the
reading commands, and the effects of the others. -/

namespace Sys2Proof.Machine

/-- The rows of R99, each with what its command finds. -/
inductive Raises : Instr → State → ErrorKind → Prop where
  | codeof {s : State} (x : Byte) : Raises (.codeof x) s .alphabetRange
  | symof {s : State} (a : Byte) : Raises (.symof a) s .alphabetRange
  | encodeInvalid {s : State} (w : BitVec 3) (x : List Byte) : Raises (.encode w x) s .invalidSymbol
  | popEmpty {s : State} : Raises .pop s .emptySequence
  | unpackShort {s : State} (w : BitVec 3) : Raises (.unpack w) s .emptySequence
  | decodeCorrupt {s : State} (w : BitVec 3) (n : Nat) (width : selectWidth w s = some n)
      (corrupt : s.len % n ≠ 0) : Raises (.decode w) s .corruptSequence
  | appendFull {s : State} (b : Bool) : Raises (.append b) s .capacity
  | packFull {s : State} (w : BitVec 3) (a : Byte) : Raises (.pack w a) s .capacity
  | encodeFull {s : State} (w : BitVec 3) (x : List Byte) : Raises (.encode w x) s .capacity
  | immutable {i : Instr} {s : State} (mode : s.mode = .encoded)
      (writes : i = .pop ∨ (∃ b, i = .append b) ∨ (∃ w a, i = .pack w a) ∨ (∃ w, i = .unpack w) ∨
        ∃ w x, i = .encode w x) : Raises i s .immutable
  | notEncoded {i : Instr} {s : State} (mode : s.mode = .uncon)
      (needs : i = .decode 0 ∨ i = .bitlen ∨ i = .symwidth ∨ i = .symcount) :
      Raises i s .notEncoded

/-- The commands that answer from the state and leave it (20_memory.md R46), and the OUT of each. -/
inductive Reads : Instr → State → List Byte → Prop where
  | codeof {s : State} (x : Byte) : Reads (.codeof x) s []
  | symof {s : State} (a : Byte) : Reads (.symof a) s []
  | length {s : State} : Reads .length s []
  | render {s : State} : Reads .render s (s.buf.map renderBit)
  | decode {s : State} (w : BitVec 3) (n : Nat) : Reads (.decode w) s (dec s.config n s.buf)
  | bitlen {s : State} : Reads .bitlen s []
  | symwidth {s : State} : Reads .symwidth s []
  | symcount {s : State} : Reads .symcount s []

/-- What a command does from `s`: it leaves `u` and answers `r`. -/
inductive Performs (i : Instr) (s : State) : State → Response → Prop where
  | raises {e : ErrorKind} (info : Nat) (why : Raises i s e) :
      Performs i s s ⟨statusCode e, zext32 info, []⟩
  | reads {out : List Byte} (v : Nat) (what : Reads i s out) :
      Performs i s s ⟨okStatus, zext32 v, out⟩
  | effect {u : State} (v : Nat) (what : Effect i s u) : Performs i s u ⟨okStatus, zext32 v, []⟩

/-- Only selector 0 in UNCON mode is without a width. -/
theorem selectWidth_eq_none {wsel : BitVec 3} {s : State} (h : selectWidth wsel s = none) :
    wsel = 0 ∧ s.mode = .uncon := by
  by_cases hw : wsel = 0
  · subst hw
    cases mode : s.mode with
    | uncon => exact ⟨rfl, rfl⟩
    | encoded => cases (selectWidth_zero_encoded mode).symm.trans h
  · cases (selectWidth_explicit hw).symm.trans h

/-- `s` with other responses before it. -/
def State.withResponses (s : State) (rs : List Response) : State := { s with responses := rs }

/-- Every command does one of the three, the same whatever the responses before it are, as the
equations of the commands look at no response. -/
theorem exec_performs (i : Instr) (s : State) : ∃ u r, Performs i s u r ∧
    ∀ rs, exec i (s.withResponses rs) = .next ((u.withResponses rs).answer r) := by
  have immutable (why : Raises i s .immutable) : ∃ u r, Performs i s u r ∧
      ∀ rs, exec i (s.withResponses rs) = .next ((u.withResponses rs).answer r) := by
    refine ⟨_, _, .raises 0 why, ?_⟩
    cases why with
    | immutable mode writes => exact fun _ => exec_immutable mode writes
  have notEncoded (why : Raises i s .notEncoded) : ∃ u r, Performs i s u r ∧
      ∀ rs, exec i (s.withResponses rs) = .next ((u.withResponses rs).answer r) := by
    refine ⟨_, _, .raises 0 why, ?_⟩
    cases why with
    | notEncoded mode needs => exact fun _ => exec_notEncoded mode needs
  cases i with
  | codeof x =>
    cases entry : codeOf s.config x with
    | none => exact ⟨_, _, .raises _ (.codeof x), fun _ => exec_codeof_miss entry⟩
    | some c => exact ⟨_, _, .reads _ (.codeof x), fun _ => exec_codeof_hit entry⟩
  | symof a =>
    obtain range | miss := Nat.lt_or_ge a.toNat 64
    · exact ⟨_, _, .reads (s.config.alpha.get ⟨a.toNat, range⟩).toNat (.symof a),
        fun _ => exec_symof_hit _ range⟩
    · exact ⟨_, _, .raises _ (.symof a), fun _ => exec_symof_miss _ miss⟩
  | append b =>
    cases mode : s.mode with
    | encoded => exact immutable (.immutable mode (by simp))
    | uncon =>
      obtain full | room := Nat.lt_or_ge s.config.cap (s.len + 1)
      · exact ⟨_, _, .raises (saturate32 (s.len + 1)) (.appendFull b),
          fun _ => exec_append_full b mode full⟩
      · exact ⟨_, _, .effect _ (.append b mode room), fun _ => exec_append_room b mode room⟩
  | pop =>
    cases mode : s.mode with
    | encoded => exact immutable (.immutable mode (by simp))
    | uncon =>
      obtain empty | ⟨pre, v, tail⟩ := List.eq_nil_or_concat' s.buf
      · have hlen : s.len = 0 := List.length_eq_zero_iff.mpr empty
        exact ⟨_, _, .raises _ .popEmpty, fun _ => exec_pop_empty mode hlen⟩
      · exact ⟨_, _, .effect _ (.pop pre v mode tail), fun _ => exec_pop_tail mode tail⟩
  | length => exact ⟨_, _, .reads s.len .length, fun _ => exec_length _⟩
  | pack w a =>
    cases mode : s.mode with
    | encoded => exact immutable (.immutable mode (by simp))
    | uncon =>
      obtain full | room := Nat.lt_or_ge s.config.cap (s.len + w.toNat)
      · exact ⟨_, _, .raises (saturate32 (s.len + w.toNat)) (.packFull w a),
          fun _ => exec_pack_full a mode full⟩
      · exact ⟨_, _, .effect _ (.pack w a mode room), fun _ => exec_pack_room a mode room⟩
  | unpack w =>
    cases mode : s.mode with
    | encoded => exact immutable (.immutable mode (by simp))
    | uncon =>
      obtain short | enough := Nat.lt_or_ge s.len w.toNat
      · exact ⟨_, _, .raises s.len (.unpackShort w), fun _ => exec_unpack_short mode short⟩
      · obtain ⟨pre, bits, tail, taken⟩ := exists_append_of_le enough
        exact ⟨_, _, .effect _ (.unpack w pre bits mode tail taken),
          fun _ => exec_unpack_tail mode tail taken⟩
  | encode w x =>
    cases mode : s.mode with
    | encoded => exact immutable (.immutable mode (by simp))
    | uncon =>
      cases invalid : x.findIdx? fun y => !valid s.config w.toNat y with
      | some k =>
        exact ⟨_, _, .raises _ (.encodeInvalid w x), fun _ => exec_encode_invalid mode invalid⟩
      | none =>
        have symbols : ∀ y ∈ x, valid s.config w.toNat y = true := by
          simpa using List.findIdx?_eq_none_iff.mp invalid
        obtain full | room := Nat.lt_or_ge s.config.cap (x.length * w.toNat)
        · exact ⟨_, _, .raises _ (.encodeFull w x), fun _ => exec_encode_full mode symbols full⟩
        · exact ⟨_, _, .effect _ (.encode w x mode symbols room),
            fun _ => exec_encode_room mode symbols room⟩
  | decode w =>
    cases width : selectWidth w s with
    | none =>
      obtain ⟨rfl, mode⟩ := selectWidth_eq_none width
      exact notEncoded (.notEncoded mode (by simp))
    | some n =>
      obtain whole | corrupt := eq_or_ne (s.len % n) 0
      · exact ⟨_, _, .reads _ (.decode w n), fun _ => exec_decode_whole width whole⟩
      · exact ⟨_, _, .raises s.len (.decodeCorrupt w n width corrupt),
          fun _ => exec_decode_corrupt width corrupt⟩
  | bitlen =>
    cases mode : s.mode with
    | encoded => exact ⟨_, _, .reads s.len .bitlen, fun _ => exec_bitlen_encoded mode⟩
    | uncon => exact notEncoded (.notEncoded mode (by simp))
  | symwidth =>
    cases mode : s.mode with
    | encoded => exact ⟨_, _, .reads s.width.toNat .symwidth, fun _ => exec_symwidth_encoded mode⟩
    | uncon => exact notEncoded (.notEncoded mode (by simp))
  | symcount =>
    cases mode : s.mode with
    | encoded =>
      exact ⟨_, _, .reads (s.len / s.width.toNat) .symcount,
        fun _ => exec_symcount_encoded mode⟩
    | uncon => exact notEncoded (.notEncoded mode (by simp))
  | render => exact ⟨_, _, .reads _ .render, fun _ => exec_render _⟩
  | clear => exact ⟨_, _, .effect _ .clear, fun _ => exec_clear _⟩

theorem Performs.responses_eq {i : Instr} {s u : State} {r : Response} (h : Performs i s u r) :
    u.responses = s.responses := by
  cases h with
  | raises | reads => rfl
  | effect _ what => exact what.responses_eq

theorem performs_of_exec {i : Instr} {s t : State} (h : exec i s = .next t) :
    ∃ u r, Performs i s u r ∧ t = u.answer r := by
  obtain ⟨u, r, performs, hexec⟩ := exec_performs i s
  have same : u.withResponses s.responses = u := by
    rw [← performs.responses_eq, State.withResponses]
  refine ⟨u, r, performs, ?_⟩
  rw [← same]
  cases h.symm.trans (hexec s.responses)
  rfl

/-- The one new response is the command's answer. -/
theorem performs_of_response {i : Instr} {s t : State} {r : Response} (h : exec i s = .next t)
    (hr : t.responses = s.responses ++ [r]) : ∃ u, Performs i s u r ∧ t = u.answer r := by
  obtain ⟨u, r', performs, rfl⟩ := performs_of_exec h
  obtain rfl : r' = r := by simpa [State.answer, performs.responses_eq] using hr
  exact ⟨u, performs, rfl⟩

/-! ### Errors -/

/-- The codes of R62 are distinct. -/
theorem statusCode_injective : ∀ {e e' : ErrorKind}, statusCode e = statusCode e' → e = e' := by
  intro e e'
  cases e <;> cases e' <;> decide

theorem Performs.raises_of_status {i : Instr} {s u : State} {r : Response}
    (h : Performs i s u r) {e : ErrorKind} (status : r.status = statusCode e) : Raises i s e := by
  cases h with
  | raises info why => exact statusCode_injective status ▸ why
  | reads | effect => exact absurd status.symm (statusCode_ne_okStatus e)

/-- A command that does not succeed changes nothing. -/
theorem Performs.eq_of_error {i : Instr} {s u : State} {r : Response} (h : Performs i s u r)
    (error : r.status ≠ okStatus) : u = s := by
  cases h with
  | raises => rfl
  | reads | effect => exact absurd rfl error

theorem Performs.of_ok {i : Instr} {s u : State} {r : Response} (h : Performs i s u r)
    (ok : r.status = okStatus) : (∃ out, Reads i s out) ∨ Effect i s u := by
  cases h with
  | raises _ why => exact absurd ok (statusCode_ne_okStatus _)
  | reads _ what => exact .inl ⟨_, what⟩
  | effect _ what => exact .inr what

/-- The statuses of R62. -/
def producedStatuses : List (BitVec 4) := [0x0, 0x1, 0x2, 0x3, 0x4, 0x6, 0x7, 0x8, 0x9]

theorem statusCode_mem {e : ErrorKind} (h : e ≠ .lengthMismatch) :
    statusCode e ∈ producedStatuses := by
  cases e
  case lengthMismatch => exact absurd rfl h
  all_goals decide

theorem Performs.status_mem {i : Instr} {s u : State} {r : Response} (h : Performs i s u r) :
    r.status ∈ producedStatuses := by
  cases h with
  | raises _ why => exact statusCode_mem (by rintro rfl; cases why)
  | reads | effect => exact List.mem_cons_self

/-- By the invariant the width of an instance divides LEN, so only an explicit width can fail. -/
theorem ne_zero_of_decodeCorrupt {s : State} (h : Safety.Consistent s) {w : BitVec 3} {n : Nat}
    (width : selectWidth w s = some n) (corrupt : s.len % n ≠ 0) : w ≠ 0 := by
  rintro rfl
  cases mode : s.mode with
  | uncon => cases (selectWidth_zero_uncon mode).symm.trans width
  | encoded =>
    cases (selectWidth_zero_encoded mode).symm.trans width
    exact corrupt (Nat.mod_eq_zero_of_dvd (width_dvd_len h mode))

/-! ### Answers -/

/-- A command of R46 has no effect. -/
theorem Performs.eq_of_reads {i : Instr} {s u : State} {r : Response} (h : Performs i s u r)
    (reads : (∃ x, i = .codeof x) ∨ (∃ a, i = .symof a) ∨ i = .length ∨ i = .render ∨
      (∃ w, i = .decode w) ∨ i = .bitlen ∨ i = .symwidth ∨ i = .symcount) : u = s := by
  cases h with
  | raises | reads => rfl
  | effect _ what => cases what <;> simp at reads

theorem Reads.out_ne_nil {i : Instr} {s : State} {out : List Byte} (h : Reads i s out)
    (nonempty : out ≠ []) : 0 < s.len ∧ (i = .render ∨ ∃ w, i = .decode w) := by
  cases h with
  | render => exact ⟨by simpa [State.len, List.length_pos_iff] using nonempty, .inl rfl⟩
  | decode w n =>
    refine ⟨Nat.pos_of_ne_zero fun empty => nonempty ?_, .inr ⟨w, rfl⟩⟩
    rw [State.len] at empty
    rw [dec, empty, Nat.zero_div, decLoop_zero]
  | _ => exact absurd rfl nonempty

theorem Performs.out_ne_nil {i : Instr} {s u : State} {r : Response} (h : Performs i s u r)
    (nonempty : r.out ≠ []) :
    r.status = okStatus ∧ 0 < s.len ∧ (i = .render ∨ ∃ w, i = .decode w) := by
  cases h with
  | raises | effect => exact absurd rfl nonempty
  | reads _ what => exact ⟨rfl, what.out_ne_nil nonempty⟩

/-! ### Effects -/

theorem Effect.port_eq {i : Instr} {s u : State} (h : Effect i s u) : u.port = s.port := by
  cases h with
  | append | pop | pack | unpack => exact State.setBuf_port ..
  | encode => exact State.beginInstance_port ..
  | clear => exact State.release_port ..

theorem Performs.port_eq {i : Instr} {s u : State} {r : Response} (h : Performs i s u r) :
    u.port = s.port := by
  cases h with
  | raises | reads => rfl
  | effect _ what => exact what.port_eq

/-- While an instance exists only CLEAR has an effect. -/
theorem Effect.eq_clear {i : Instr} {s u : State} (h : Effect i s u) (mode : s.mode = .encoded) :
    i = .clear := by
  cases h with
  | clear => rfl
  | _ _ => simp_all

/-- The bits a raw command puts or takes stand at the tail (20_memory.md R38). -/
theorem Effect.raw {i : Instr} {s u : State} (h : Effect i s u)
    (raw : i = .pop ∨ (∃ b, i = .append b) ∨ (∃ w a, i = .pack w a) ∨ ∃ w, i = .unpack w) :
    ∃ b, u = s.setBuf b ∧ (b <+: s.buf ∨ s.buf <+: b) := by
  cases h with
  | append | pack => exact ⟨_, rfl, .inr (List.prefix_append ..)⟩
  | pop pre v mode tail | unpack w pre bits mode tail =>
    exact ⟨pre, rfl, .inl (tail ▸ List.prefix_append ..)⟩
  | encode | clear => simp at raw

end Sys2Proof.Machine

open Sys2Proof Sys2Proof.Machine

/-- Settles O14: only RENDER and DECODE have an OUT, as long as the buffer or its number of
symbols. -/
theorem oneResponsePerCommand : Obligations.OneResponsePerCommand := by
  intro s c rest hp
  cases hd : decode c with
  | error e =>
    obtain rfl := decode_eq_error_word hd
    exact ⟨_, _, step_illegal hp hd, rfl, rfl, fun nonempty => absurd rfl nonempty⟩
  | ok i =>
    obtain ⟨u, r, performs, hexec⟩ := exec_performs i { s with port := rest }
    refine ⟨_, r, (step_decoded hp hd).trans (hexec s.responses), performs.port_eq, rfl,
      fun nonempty => ?out⟩
    obtain ⟨ok, len, rfl | ⟨w, rfl⟩⟩ := performs.out_ne_nil nonempty
    · exact ⟨ok, len, .inl rfl⟩
    · exact ⟨ok, len, .inr ⟨w, rfl⟩⟩

/-- Settles O16, by the four kinds of step: the idle step and the reset event answer nothing, the
others raise IllegalCommand or perform a command. -/
theorem reservedStatusesNeverProduced : Obligations.ReservedStatusesNeverProduced := by
  intro s t hstep
  cases step_case hstep with
  | idle | reset => exact .inl rfl
  | illegal => exact .inr ⟨_, rfl, statusCode_mem (e := .illegalCommand) (by decide)⟩
  | decoded port legal performed =>
    obtain ⟨u, r, performs, rfl⟩ := performs_of_exec performed
    exact .inr ⟨r, by rw [State.answer, performs.responses_eq], performs.status_mem⟩

/-- Settles O17: the status names the error, and each row of R99 names its commands. -/
theorem errorsRaisedOnlyByTheirCommands : Obligations.ErrorsRaisedOnlyByTheirCommands := by
  intro i s t r consistent h hr
  obtain ⟨u, performs, -⟩ := performs_of_response h hr
  have raised (e : ErrorKind) : r.status = statusCode e → Raises i s e :=
    performs.raises_of_status
  refine ⟨fun h1 => ?_, fun h2 => ?_, fun h3 => ?_, fun h4 => ?_, fun h5 => ?_, fun h6 => ?_,
    fun h7 => ?_, fun h8 => ?_, fun h9 => ?_⟩
  · cases raised .alphabetRange h1 <;> simp
  · cases raised .invalidSymbol h2
    exact ⟨_, _, rfl⟩
  · cases raised .emptySequence h3 <;> simp
  · cases raised .corruptSequence h4 with
    | decodeCorrupt w n width corrupt =>
      exact ⟨w, rfl, ne_zero_of_decodeCorrupt consistent width corrupt⟩
  · cases raised .lengthMismatch h5
  · cases raised .illegalCommand h6
  · cases raised .capacity h7 <;> simp
  · cases raised .immutable h8 with
    | immutable mode writes => exact ⟨mode, writes⟩
  · cases raised .notEncoded h9 with
    | notEncoded mode needs => exact ⟨mode, needs⟩

/-- Settles O30: an error changes nothing, an APPEND or POP that succeeds has its effect, and a
reading command has none. -/
theorem lengthChangesByOne : Obligations.LengthChangesByOne := by
  intro i s t r h hr
  obtain ⟨u, performs, rfl⟩ := performs_of_response h hr
  refine ⟨fun error => ?fails, ?append, ?pop, fun reads => ?reads⟩
  case fails => rw [performs.eq_of_error error]; rfl
  case append =>
    rintro b rfl ok
    obtain ⟨_, ⟨⟩⟩ | effect := performs.of_ok ok
    cases effect
    exact List.length_append
  case pop =>
    rintro rfl ok
    obtain ⟨_, ⟨⟩⟩ | effect := performs.of_ok ok
    cases effect with
    | pop pre v mode tail =>
      have one : s.len = pre.length + 1 := by simp [State.len, tail]
      exact one.symm
  case reads =>
    rw [performs.eq_of_reads (by tauto)]
    rfl

/-- Settles O51: no effect is one of a reading command, and the answer does not depend on the
responses before it. -/
theorem readCommandsChangeNothing : Obligations.ReadCommandsChangeNothing := by
  intro i s reads
  obtain ⟨u, r, performs, hexec⟩ := exec_performs i s
  obtain rfl := performs.eq_of_reads reads
  exact ⟨u.answer r, r, hexec u.responses, rfl, _, hexec (u.responses ++ [r]), rfl⟩

/-- Settles O52: the four commands answer only, or replace the buffer by one that is an initial part
of it or has it as an initial part. -/
theorem rawCommandsReachOnlyTheTail : Obligations.RawCommandsReachOnlyTheTail := by
  intro i s t raw h
  obtain ⟨u, r, hexec, rfl | ⟨effect, -⟩⟩ := exec_cases i s
  all_goals cases hexec.symm.trans h
  · exact ⟨u.buf, r, rfl, .inl (List.prefix_refl _)⟩
  · obtain ⟨b, rfl, tail⟩ := effect.raw raw
    exact ⟨b, r, rfl, tail⟩

/-- Settles O53: in ENCODED mode only CLEAR has an effect. -/
theorem instanceIsImmutable : Obligations.InstanceIsImmutable := by
  intro s t mode hstep
  cases step_case hstep with
  | idle | illegal => exact .inr (.inr ⟨rfl, rfl, rfl, rfl⟩)
  | reset port => exact .inl ⟨_, port⟩
  | @decoded c rest i _ port legal performed =>
    obtain ⟨u, r, hexec, rfl | ⟨effect, -⟩⟩ := exec_cases i { s with port := rest }
    · cases hexec.symm.trans performed
      exact .inr (.inr ⟨rfl, rfl, rfl, rfl⟩)
    · obtain rfl := effect.eq_clear mode
      exact .inr (.inl ⟨c, rest, port, legal⟩)

/-- Settles O55: the same equation of the command holds whatever the responses are. -/
theorem responsesAreNeverReadBack : Obligations.ResponsesAreNeverReadBack := by
  intro i s rs
  obtain ⟨u, r, -, hexec⟩ := exec_performs i s
  exact ⟨u, r, hexec s.responses, hexec rs⟩
end

