-- ==== Sys2Proof/Proofs/Assembler.lean ====
section
/-! The assembler gives each line its word, and never an illegal one (30_encoding.md R66, R67). -/

namespace Sys2Proof.Machine

theorem inRange_eq_some {check : Bool} {i j : Instr} :
    inRange check i = some j ↔ check = true ∧ i = j := by
  cases check <;> simp [inRange]

theorem map_encode_inRange (check : Bool) (i : Instr) :
    (inRange check i).map encode = if check then some (encode i) else none := by
  cases check <;> rfl

/-- The ranges of R66 keep the operands inside their fields. -/
theorem legalWidth_ofNat {w : Nat} (h : 1 ≤ w ∧ w ≤ 6) : legalWidth (BitVec.ofNat 3 w) = true := by
  have : w % 8 = w := Nat.mod_eq_of_lt (by omega)
  simpa [legalWidth, this] using h

theorem legalSelector_ofNat {w : Nat} (h : w ≤ 6) : legalSelector (BitVec.ofNat 3 w) = true := by
  have : w % 8 = w := Nat.mod_eq_of_lt (by omega)
  simpa [legalSelector, this] using h

/-- A line in range stands for a well-formed command. -/
theorem wellFormed_of_asmInstr {line : AsmLine} {i : Instr} (h : asmInstr line = some i) :
    i.wellFormed = true := by
  cases line with
  | codeof | symof | append =>
    obtain ⟨-, rfl⟩ := inRange_eq_some.mp h
    rfl
  | pack w n =>
    obtain ⟨check, rfl⟩ := inRange_eq_some.mp h
    simp only [Bool.and_eq_true, decide_eq_true_eq] at check
    exact legalWidth_ofNat check.1
  | unpack w | encode w t =>
    obtain ⟨check, rfl⟩ := inRange_eq_some.mp h
    simp only [Bool.and_eq_true, decide_eq_true_eq] at check
    exact legalWidth_ofNat check
  | decode w =>
    obtain ⟨check, rfl⟩ := inRange_eq_some.mp h
    exact legalSelector_ofNat (of_decide_eq_true check)
  | _ => cases h; rfl

theorem decode_of_assemble {line : AsmLine} {c : Command} (h : assemble line = some c) :
    ∃ i, decode c = .ok i := by
  obtain ⟨i, hi, rfl⟩ := Option.map_eq_some_iff.mp h
  exact ⟨i, decode_encode (wellFormed_of_asmInstr hi)⟩

/-- The word of operands in range, written as numbers. -/
theorem commandWord_ofNat (op : BitVec 4) {w n : Nat} (hw : w < 8) (hn : n < 256) :
    commandWord op (BitVec.ofNat 3 w) (BitVec.ofNat 8 n) =
      commandWord op 0 0 + BitVec.ofNat 32 (2 ^ 8 * w) + BitVec.ofNat 32 n := by
  apply BitVec.eq_of_toNat_eq
  simp only [BitVec.toNat_add, commandWord_toNat, BitVec.ofNat_eq_ofNat, BitVec.toNat_ofNat]
  omega

/-- The word of a line with a byte operand alone. -/
theorem commandWord_ofNat_byte (op : BitVec 4) {n : Nat} (hn : n < 256) :
    commandWord op 0 (BitVec.ofNat 8 n) = commandWord op 0 0 + BitVec.ofNat 32 n :=
  (commandWord_ofNat op (by decide) hn).trans (congrArg (· + _) (BitVec.add_zero _))

/-- The word of a line with a width alone. -/
theorem commandWord_ofNat_width (op : BitVec 4) {w : Nat} (hw : w < 8) :
    commandWord op (BitVec.ofNat 3 w) 0 = commandWord op 0 0 + BitVec.ofNat 32 (2 ^ 8 * w) :=
  (commandWord_ofNat op hw (by decide)).trans (BitVec.add_zero _)

/-- A line assembles to its word where its operands are in range, and to none elsewhere. -/
theorem assemble_eq_ite {line : AsmLine} {check : Bool} {i : Instr} {p : Prop} [Decidable p]
    {c : Command} (line_eq : asmInstr line = inRange check i) (range : check = true ↔ p)
    (word : p → encode i = c) : assemble line = if p then some c else none := by
  rw [assemble, line_eq, map_encode_inRange]
  by_cases h : p
  · rw [if_pos h, if_pos (range.mpr h), word h]
  · rw [if_neg h, if_neg (mt range.mp h)]

end Sys2Proof.Machine

open Sys2Proof Sys2Proof.Machine

/-- Settles O6: what is assembled is the encoding of a well-formed command, and operands in range
are their fields of the word. -/
theorem assemblerEmitsLegalCommands : Obligations.AssemblerEmitsLegalCommands := by
  have word {w w' : Word} (t : List Byte) (h : w = w') : Command.mk w t = ⟨w', t⟩ :=
    congrArg (Command.mk · t) h
  refine ⟨fun _ _ => decode_of_assemble, fun n => ?codeof, fun n => ?symof, fun n => ?append,
    fun w n => ?pack, fun w => ?unpack, fun w t => ?encode, fun w => ?decode,
    rfl, rfl, rfl, rfl, rfl, rfl, rfl, rfl⟩
  case codeof =>
    exact assemble_eq_ite rfl decide_eq_true_iff fun h =>
      word [] (commandWord_ofNat_byte 1 (by omega))
  case symof =>
    exact assemble_eq_ite rfl decide_eq_true_iff fun h =>
      word [] (commandWord_ofNat_byte 2 (by omega))
  case append =>
    refine assemble_eq_ite rfl decide_eq_true_iff fun h => ?_
    obtain rfl | rfl := Nat.le_one_iff_eq_zero_or_eq_one.mp h <;> rfl
  case pack =>
    exact assemble_eq_ite rfl (by simp [and_assoc]) fun h =>
      word [] (commandWord_ofNat 6 (by omega) (by omega))
  case unpack =>
    exact assemble_eq_ite rfl (by simp) fun h => word [] (commandWord_ofNat_width 7 (by omega))
  case encode =>
    exact assemble_eq_ite rfl (by simp) fun h => word t (commandWord_ofNat_width 8 (by omega))
  case decode =>
    exact assemble_eq_ite (p := w ≤ 6) rfl decide_eq_true_iff fun h =>
      word [] (commandWord_ofNat_width 9 (w := w) (by omega))

/-- Settles O7: a pseudo-instruction is another name of its line. -/
theorem pseudoInstructionsExpand : Obligations.PseudoInstructionsExpand :=
  ⟨fun _ => rfl, fun _ => rfl, fun _ => rfl, rfl, rfl, rfl, rfl, rfl, rfl, rfl⟩
end

