-- ==== Sys2Proof/Proofs/LookupLaws.lean ====
section
/-! The laws of the lookups: the alphabets are nested, and CODEOF and SYMOF are inverse to each
other (40_alphabet_lookup.md R72, R73). -/

namespace Sys2Proof.Machine

theorem two_pow_le_64 {b : Nat} (h : b ≤ 6) : 2 ^ b ≤ 64 :=
  Nat.pow_le_pow_right (by decide) h

theorem alphabet_length (cfg : Config) {b : Nat} (h : b ≤ 6) : (alphabet cfg b).length = 2 ^ b := by
  rw [alphabet, List.length_take, Vector.length_toList, Nat.min_eq_left (two_pow_le_64 h)]

theorem alphabet_nodup {cfg : Config} (h : cfg.Admissible) (b : Nat) : (alphabet cfg b).Nodup := by
  rw [alphabet_eq_map]
  exact ((List.nodup_finRange 64).sublist (List.take_sublist _ _)).map h.injective

/-- The byte values valid at a width are its alphabet, each once. -/
theorem valid_perm_alphabet {cfg : Config} (h : cfg.Admissible) (b : Nat) :
    ((List.range 256).filter fun n => valid cfg b (BitVec.ofNat 8 n)).Perm
      ((alphabet cfg b).map BitVec.toNat) := by
  have valid_nodup := (List.nodup_range (n := 256)).filter fun n => valid cfg b (BitVec.ofNat 8 n)
  have alphabet_nodup := (alphabet_nodup h b).map fun _ _ => BitVec.eq_of_toNat_eq
  refine (List.perm_ext_iff_of_nodup valid_nodup alphabet_nodup).mpr fun n => ?_
  simp only [List.mem_filter, List.mem_range, valid_iff_mem_alphabet h, List.mem_map]
  constructor
  · rintro ⟨hn, hx⟩
    exact ⟨_, hx, by rw [BitVec.toNat_ofNat, Nat.mod_eq_of_lt hn]⟩
  · rintro ⟨x, hx, rfl⟩
    exact ⟨x.isLt, by rwa [BitVec.ofNat_toNat, BitVec.setWidth_eq]⟩

theorem valid_mono {cfg : Config} {b b' : Nat} (h : b ≤ b') {x : Byte}
    (hx : valid cfg b x = true) : valid cfg b' x = true := by
  obtain ⟨c, hc, hlt⟩ := valid_iff_codeOf.mp hx
  exact valid_iff_codeOf.mpr ⟨c, hc, hlt.trans_le (Nat.pow_le_pow_right (by decide) h)⟩

/-- A code's symbol is valid at the widths the code fits. -/
theorem valid_get_iff {cfg : Config} (h : cfg.Admissible) {b : Nat} {c : Fin 64} :
    valid cfg b (cfg.alpha.get c) = true ↔ c.val < 2 ^ b := by
  simp [valid_iff_codeOf, codeOf_get h]

/-- SYMOF of a code answers its entry. -/
theorem exec_symof_code (s : State) (c : Fin 64) :
    exec (.symof (BitVec.ofNat 8 c.val)) s =
      .next (s.answer ⟨okStatus, (s.config.alpha.get c).setWidth 32, []⟩) := by
  have operand : (BitVec.ofNat 8 c.val).toNat = c.val :=
    (BitVec.toNat_ofNat ..).trans (Nat.mod_eq_of_lt (c.isLt.trans (by decide)))
  rw [exec_symof_hit s (operand.symm ▸ c.isLt), State.respond_eq_answer, zext32_toNat]
  simp only [operand]

/-- The answers of the lookups are the table's. -/
theorem exec_lookup_of_config_eq {i : Instr} {s s' : State} (config : s.config = s'.config)
    (lookup : (∃ x, i = .codeof x) ∨ ∃ a, i = .symof a) :
    ∃ r, exec i s = .next (s.answer r) ∧ exec i s' = .next (s'.answer r) := by
  obtain ⟨x, rfl⟩ | ⟨a, rfl⟩ := lookup
  · cases entry : codeOf s.config x with
    | none => exact ⟨_, exec_codeof_miss entry, exec_codeof_miss (config ▸ entry)⟩
    | some c => exact ⟨_, exec_codeof_hit entry, exec_codeof_hit (config ▸ entry)⟩
  · obtain range | miss := Nat.lt_or_ge a.toNat 64
    · exact ⟨_, exec_symof_hit s range, config ▸ exec_symof_hit s' range⟩
    · exact ⟨_, exec_symof_miss s miss, exec_symof_miss s' miss⟩

end Sys2Proof.Machine

open Sys2Proof Sys2Proof.Machine

/-- Settles O23: an alphabet has one symbol for each code below 2^b, and the symbol of code 2^b is
the first that a larger alphabet adds. -/
theorem alphabetsAreNested : Obligations.AlphabetsAreNested := by
  refine fun cfg h b _ hb => ⟨?count, fun b' hlt hb' => ⟨fun x => valid_mono hlt.le, ?strict⟩⟩
  case count => rw [(valid_perm_alphabet h b).length_eq, List.length_map, alphabet_length cfg hb]
  case strict =>
    have larger : 2 ^ b < 2 ^ b' := Nat.pow_lt_pow_right (by decide) hlt
    let c : Fin 64 := ⟨2 ^ b, larger.trans_le (two_pow_le_64 hb')⟩
    refine ⟨cfg.alpha.get c, (valid_get_iff h).mpr larger, ?_⟩
    exact Bool.eq_false_iff.mpr fun hv => Nat.lt_irrefl _ ((valid_get_iff h).mp hv)

/-- Settles O24: SYMOF reads the entry of the code, and the reverse decoder gives the code of an
entry back. -/
theorem lookupsAreInverse : Obligations.LookupsAreInverse := by
  refine ⟨fun s c h => ?inverse, fun s x c _ hc => ?entry, fun s s' i => exec_lookup_of_config_eq⟩
  case inverse =>
    exact ⟨_, _, exec_symof_code s c, rfl, rfl, exec_codeof_hit (codeOf_get h c)⟩
  case entry =>
    rw [exec_symof_code, codeOf_sound hc]
    rfl
end

