-- ==== Sys2Proof/Proofs/BitValue.lean ====
section
/-! The number a group of bits stands for (20_memory.md R41): the packer and the unpacker are
inverse to each other (42_packer.md R83, R85). A CapacityError value above 32 bits saturates
(60_exceptions.md R100). -/

namespace Sys2Proof.Machine

/-- The number of a group of bits, bit `i` with weight 2^i (R41). -/
def bitsValue : List Bool → Nat
  | [] => 0
  | b :: bits => b.toNat + 2 * bitsValue bits

/-- The loop of R83 computes it. -/
theorem foldl_shiftIn_reverse (bits : List Bool) :
    bits.reverse.foldl shiftIn 0 = bitsValue bits := by
  induction bits with
  | nil => rfl
  | cons b bits ih =>
    rw [List.reverse_cons, List.foldl_append, ih, List.foldl_cons, List.foldl_nil, shiftIn_eq,
      bitsValue, Nat.add_comm]

theorem unpackval_append_eq {w : Nat} {bits : List Bool} (pre : List Bool)
    (h : bits.length = w) : unpackval w (pre ++ bits) = bitsValue bits := by
  rw [unpackval_append pre h, ← h, unpackval_length, foldl_shiftIn_reverse]

theorem bitsValue_lt (bits : List Bool) : bitsValue bits < 2 ^ bits.length := by
  induction bits with
  | nil => exact Nat.one_pos
  | cons b bits ih =>
    have := Bool.toNat_lt b
    rw [bitsValue, List.length_cons, Nat.pow_succ]
    omega

theorem bitsValue_eq_sum (bits : List Bool) :
    bitsValue bits = ∑ i ∈ Finset.range bits.length, (bits.getD i false).toNat * 2 ^ i := by
  induction bits with
  | nil => rfl
  | cons b bits ih =>
    rw [bitsValue, List.length_cons, Finset.sum_range_succ', ih, Finset.mul_sum, Nat.add_comm]
    simp [Nat.pow_succ', Nat.mul_left_comm]

/-! ### Packing and the number packed -/

theorem packbits_succ (w c : Nat) : packbits (w + 1) c = c.testBit 0 :: packbits w (c / 2) := by
  simp [packbits, List.range_succ_eq_map, Nat.testBit_succ]

theorem bitsValue_packbits (w c : Nat) : bitsValue (packbits w c) = c % 2 ^ w := by
  induction w generalizing c with
  | zero => simp [packbits, bitsValue, Nat.mod_one]
  | succ w ih =>
    rw [packbits_succ, bitsValue, ih, Nat.toNat_testBit, Nat.pow_zero, Nat.div_one, Nat.pow_succ',
      Nat.mod_mul]

theorem packbits_bitsValue (bits : List Bool) : packbits bits.length (bitsValue bits) = bits := by
  induction bits with
  | nil => rfl
  | cons b bits ih =>
    have low : (bitsValue (b :: bits)).testBit 0 = b := by cases b <;> simp [bitsValue]
    have high : bitsValue (b :: bits) / 2 = bitsValue bits := by
      have := Bool.toNat_lt b
      rw [bitsValue]
      omega
    rw [List.length_cons, packbits_succ, low, high, ih]

/-! ### A group of at most six bits -/

theorem toNat_le_six_of_legalWidth {w : BitVec 3} (h : legalWidth w = true) : w.toNat ≤ 6 := by
  simp [legalWidth] at h
  omega

/-- The value of a group fits a byte operand, and so `VALUE`. -/
theorem bitsValue_lt_64 {bits : List Bool} (h : bits.length ≤ 6) : bitsValue bits < 64 :=
  (bitsValue_lt bits).trans_le (two_pow_le_64 h)

theorem unpackval_lt {w : Nat} {B : List Bool} (h : w ≤ B.length) : unpackval w B < 2 ^ w := by
  obtain ⟨pre, bits, rfl, taken⟩ := exists_append_of_le h
  rw [unpackval_append_eq pre taken, ← taken]
  exact bitsValue_lt bits

theorem unpackval_eq_sum {w : Nat} {B : List Bool} (h : w ≤ B.length) :
    unpackval w B =
      ∑ i ∈ Finset.range w, (B.getD (B.length - w + i) false).toNat * 2 ^ i := by
  obtain ⟨pre, bits, rfl, taken⟩ := exists_append_of_le h
  have head : (pre ++ bits).length - w = pre.length := by simp [taken]
  rw [unpackval_append_eq pre taken, bitsValue_eq_sum, taken]
  refine Finset.sum_congr rfl fun i _ => ?_
  rw [head, List.getD_append_right _ _ _ _ (Nat.le_add_right ..), Nat.add_sub_cancel_left]

/-! ### Saturation -/

theorem zext32_saturate32 {n : Nat} (h : 2 ^ 32 ≤ n) : zext32 (saturate32 n) = 0xFFFFFFFF := by
  rw [saturate32, Nat.min_eq_right (Nat.sub_le_of_le_add (h.trans (Nat.le_succ n)))]
  rfl

end Sys2Proof.Machine

open Sys2Proof Sys2Proof.Machine

/-- Settles O34, by the number of the last `w` bits. -/
theorem unpackvalIsWeightedSum : Obligations.UnpackvalIsWeightedSum :=
  fun _ _ _ small enough => ⟨unpackval_eq_sum enough, unpackval_lt enough, two_pow_le_64 small⟩

/-- Settles O37: the number of packed bits is the operand without its high bits, and packing the
number of a group gives the group. -/
theorem packAndUnpackAreInverse : Obligations.PackAndUnpackAreInverse := by
  refine fun w a s legal mode => ⟨fun room => ?packUnpack, fun enough fits => ?unpackPack⟩
  case packUnpack =>
    let packed := packbits w.toNat (lowBits w.toNat a.toNat)
    have unpacked := exec_unpack_tail (s := (s.setBuf (s.buf ++ packed)).respond 0 []) (w := w) mode
      rfl (packbits_length ..)
    rw [foldl_shiftIn_reverse, bitsValue_packbits, lowBits, Nat.mod_mod] at unpacked
    refine ⟨_, exec_pack_room a mode room, unpacked.trans ?_⟩
    simp [State.setBuf, State.respond, okStatus, zext32]
  case unpackPack =>
    obtain ⟨pre, bits, tail, taken⟩ := exists_append_of_le enough
    have small : bitsValue bits < 64 := bitsValue_lt_64 (taken ▸ toNat_le_six_of_legalWidth legal)
    let c : Byte := BitVec.ofNat 8 (bitsValue bits)
    have c_toNat : c.toNat = bitsValue bits := Nat.mod_eq_of_lt (small.trans (by decide))
    have repacked : packbits w.toNat (lowBits w.toNat c.toNat) = bits := by
      rw [c_toNat, lowBits, ← taken, Nat.mod_eq_of_lt (bitsValue_lt bits), packbits_bitsValue]
    have room : pre.length + w.toNat ≤ s.config.cap := by
      simpa [State.len, tail, taken] using fits
    refine ⟨_, c, exec_unpack_tail mode tail taken, ?value, ?packed⟩
    case value =>
      rw [foldl_shiftIn_reverse, ← c_toNat, ← zext32_toNat]
      rfl
    case packed =>
      refine (exec_pack_room (s := (s.setBuf pre).respond _ []) c mode room).trans ?_
      rw [repacked, foldl_shiftIn_reverse, ← c_toNat, ← zext32_toNat]
      simp [State.setBuf, State.respond, okStatus, zext32, ← tail]

/-- Settles O32: the room decides, and a length of 2^32 or more saturates. -/
theorem capacityErrorSaturates : Obligations.CapacityErrorSaturates := by
  refine ⟨fun bit s mode full large => ?append, fun w a s mode full large => ?pack⟩
  case append =>
    rw [exec_append_full bit mode full, State.raise, zext32_saturate32 large]
    rfl
  case pack =>
    rw [exec_pack_full a mode full, State.raise, zext32_saturate32 large]
    rfl
end

