-- ==== Sys2Proof/Proofs/Runs.lean ====
section
/-! Runs of commands: APPENDs and POPs, and the packer against them (41_bit_buffer.md R79;
42_packer.md R82, R84). -/

namespace Sys2Proof.Safety

open Sys2Proof.Machine

/-- A run whose first event is a command that decodes goes on from where the command leads. -/
theorem steps_command {n : Nat} {s t : State} {c : Command} {rest : List HostEvent} {i : Instr}
    (legal : decode c = .ok i) (performed : exec i (present s rest) = .next t) :
    steps (n + 1) (present s (.command c :: rest)) = steps n t := by
  have port : (present s (.command c :: rest)).port = .command c :: rest := rfl
  rw [steps, step_decoded port legal]
  exact performed ▸ rfl

/-- An APPEND for each bit. -/
def appendEvents (bits : List Bool) : List HostEvent :=
  bits.map fun b => .command ⟨0x30000000 + BitVec.ofNat 32 b.toNat, []⟩

/-- The answers of POPs that take the given bits. -/
def popAnswers (bits : List Bool) : List Response :=
  bits.map fun b => ⟨0x0, BitVec.ofNat 32 b.toNat, []⟩

theorem decode_appendWord (b : Bool) :
    decode ⟨0x30000000 + BitVec.ofNat 32 b.toNat, []⟩ = .ok (.append b) :=
  decode_of_encode_eq rfl (encode_append b)

theorem decode_popWord : decode ⟨0x40000000, []⟩ = .ok .pop :=
  decode_of_encode_eq rfl rfl

/-- With room for all of them, the bits of a run of APPENDs end up at the tail in order. -/
theorem steps_appends (n : Nat) {s : State} {bits : List Bool} (rest : List HostEvent)
    (mode : s.mode = .uncon) (room : s.len + bits.length ≤ s.config.cap) :
    steps (n + bits.length) (present s (appendEvents bits ++ rest)) = steps n (present { s with
      buf := s.buf ++ bits
      responses := s.responses ++ List.replicate bits.length ⟨0x0, 0, []⟩ } rest) := by
  induction bits generalizing s with
  | nil => simp [appendEvents]
  | cons b bits ih =>
    rw [List.length_cons] at room
    have fits : s.len + 1 ≤ s.config.cap := by omega
    let t := (s.setBuf (s.buf ++ [b])).respond 0 []
    have first : exec (.append b) (present s (appendEvents bits ++ rest)) =
        .next (present t (appendEvents bits ++ rest)) :=
      exec_append_room b mode fits
    have others : t.len + bits.length ≤ t.config.cap := by
      have : t.len = s.len + 1 := List.length_append
      exact Nat.le_trans (by omega) room
    calc steps (n + bits.length + 1) (present s (appendEvents (b :: bits) ++ rest))
      _ = steps (n + bits.length) (present t (appendEvents bits ++ rest)) :=
        steps_command (decode_appendWord b) first
      _ = _ := ih (s := t) mode others
      _ = _ := by simp [t, State.respond, State.setBuf, okStatus, zext32, List.replicate_succ]

/-- The bits of a run of POPs come from the tail, the last first. -/
theorem steps_pops (n : Nat) {s : State} {pre bits : List Bool} (rest : List HostEvent)
    (mode : s.mode = .uncon) (tail : s.buf = pre ++ bits) :
    steps (n + bits.length)
        (present s (List.replicate bits.length (.command ⟨0x40000000, []⟩) ++ rest)) =
      steps n (present { s with
        buf := pre
        responses := s.responses ++ popAnswers bits.reverse } rest) := by
  induction bits using List.reverseRecOn generalizing s with
  | nil =>
    have same : pre = s.buf := by simpa using tail.symm
    simp [popAnswers, same]
  | append_singleton bits b ih =>
    let t := (s.setBuf (pre ++ bits)).respond b.toNat []
    let others := List.replicate bits.length (.command ⟨0x40000000, []⟩) ++ rest
    have first : exec .pop (present s others) = .next (present t others) :=
      exec_pop_tail mode (tail.trans (List.append_assoc ..).symm)
    rw [List.length_append, List.length_singleton]
    calc steps (n + bits.length + 1) (present s (.command ⟨0x40000000, []⟩ :: others))
      _ = steps (n + bits.length) (present t others) := steps_command decode_popWord first
      _ = _ := ih (s := t) mode rfl
      _ = _ := by simp [t, State.respond, State.setBuf, okStatus, zext32, popAnswers]

theorem packbits_lowBits (w : Nat) (a : Byte) :
    packbits w (lowBits w a.toNat) = (List.range w).map a.getLsbD := by
  refine List.ext_getElem? fun i => ?_
  obtain hi | hi := Nat.lt_or_ge i w
  · rw [packbits_lowBits_getElem? a hi]
    simp [hi]
  · rw [List.getElem?_eq_none (by simpa using hi), List.getElem?_eq_none (by simpa using hi)]

/-- The number of a group, taken bit by bit with the most significant first (R84). -/
theorem foldl_reverse_eq_bitsValue (bits : List Bool) :
    bits.reverse.foldl (fun code b => 2 * code + b.toNat) 0 = bitsValue bits := by
  rw [← foldl_shiftIn_reverse]
  simp only [← shiftIn_eq]

end Sys2Proof.Safety

open Sys2Proof Sys2Proof.Machine Sys2Proof.Safety

/-- Settles O29: the APPENDs put the bits at the tail, the POPs take the same bits from it. -/
theorem popsReverseAppends : Obligations.PopsReverseAppends := by
  intro s bits mode room
  let t : State := { s with
    buf := s.buf ++ bits
    responses := s.responses ++ List.replicate bits.length ⟨0x0, 0, []⟩ }
  have appends := steps_appends bits.length
    (List.replicate bits.length (.command ⟨0x40000000, []⟩) ++ []) mode room
  have pops := steps_pops 0 (s := t) (pre := s.buf) (bits := bits) [] mode rfl
  rw [Nat.zero_add] at pops
  rw [List.append_nil] at appends pops
  exact appends.trans pops

/-- Settles O33: PACK puts the low bits at the tail, as do the APPENDs of them. -/
theorem packEqualsAppends : Obligations.PackEqualsAppends := by
  intro w a s legal mode room
  let bits := (List.range w.toNat).map a.getLsbD
  have hlen : bits.length = w.toNat := by simp [bits]
  have events : ((List.range w.toNat).map fun i =>
      HostEvent.command ⟨0x30000000 + BitVec.ofNat 32 (a.getLsbD i).toNat, []⟩) =
      appendEvents bits ++ [] := by simp [appendEvents, bits]
  have run := steps_appends 0 (bits := bits) [] mode (by rwa [hlen])
  rw [Nat.zero_add, hlen, ← events] at run
  refine ⟨_, _, exec_pack_room a mode room, run, ?_, rfl, rfl, rfl⟩
  exact congrArg (s.buf ++ ·) (packbits_lowBits w.toNat a).symm

/-- Settles O36: UNPACK and the POPs take the same group from the tail. -/
theorem unpackEqualsPops : Obligations.UnpackEqualsPops := by
  intro w s legal mode enough
  obtain ⟨pre, bits, tail, taken⟩ := exists_append_of_le enough
  have small : bitsValue bits < 64 := bitsValue_lt_64 (taken ▸ toNat_le_six_of_legalWidth legal)
  have run := steps_pops 0 [] mode tail
  rw [Nat.zero_add, taken, List.append_nil] at run
  refine ⟨_, _, _, bits.reverse, exec_unpack_tail mode tail taken, rfl, run, rfl, ?length, ?value,
    rfl, rfl, rfl, rfl⟩
  case length => rw [List.length_reverse, taken]
  case value =>
    rw [foldl_shiftIn_reverse, foldl_reverse_eq_bitsValue]
    exact toNat_zext32_of_lt (small.trans (by decide))
end

