-- ==== Sys2Proof/Proofs/CodecLaws.lean ====
section
/-! The layout of an instance, the closed form of its text, and the round trip (43_codec.md R88,
R89, R95 to R97; 70_reset_and_hazards.md R119). -/

namespace Sys2Proof.Machine

/-! ### Layout and text -/

/-- R88: group `m` of an instance holds the code of text symbol `L - 1 - m`. -/
theorem enc_getElem? {cfg : Config} {w : Nat} {t : List Byte}
    (symbols : ∀ x ∈ t, valid cfg w x = true) {m i : Nat} (hm : m < t.length) (hi : i < w) :
    ∃ c : Fin 64, t[t.length - 1 - m]? = some (cfg.alpha.get c) ∧
      (enc cfg w t)[m * w + i]? = some (c.val.testBit i) := by
  induction t with
  | nil => cases hm
  | cons x t ih =>
    obtain ⟨hx, ht⟩ := List.forall_mem_cons.mp symbols
    have hlen := enc_length ht
    rw [enc_cons]
    obtain later | rfl := Nat.lt_or_eq_of_le (Nat.le_of_lt_succ hm)
    · obtain ⟨c, hsym, hbit⟩ := ih ht later
      have group : m * w + i < (enc cfg w t).length := by
        have : (m + 1) * w ≤ t.length * w := Nat.mul_le_mul_right w later
        rw [Nat.succ_mul] at this
        omega
      have index : (x :: t).length - 1 - m = t.length - 1 - m + 1 := by
        simp only [List.length_cons]
        omega
      refine ⟨c, ?_, ?_⟩
      · rw [index, List.getElem?_cons_succ, hsym]
      · rw [List.getElem?_append_left group, hbit]
    · obtain ⟨c, hc, -, bits⟩ := symbolBits_of_valid hx
      refine ⟨c, ?_, ?_⟩
      · simp [codeOf_sound hc]
      · rw [← hlen, List.getElem?_append_right (Nat.le_add_right ..), Nat.add_sub_cancel_left, bits,
          packbits_getElem? _ hi]

theorem dropTail_dropTail (m n : Nat) (B : List Bool) :
    dropTail m (dropTail n B) = dropTail (n + m) B := by
  rw [dropTail, dropTail_length, dropTail, List.take_take, dropTail]
  congr 1
  omega

/-- Symbol `k` of the text is read after `k` groups have left the tail (R89). -/
theorem decLoop_getElem? (cfg : Config) (w : Nat) {n k : Nat} (B : List Bool) (hk : k < n) :
    (decLoop cfg w n B)[k]? =
      some (cfg.alpha.get (Fin.ofNat 64 (unpackval w (dropTail (k * w) B)))) := by
  induction n generalizing k B with
  | zero => cases hk
  | succ n ih =>
    cases k with
    | zero => simp [decLoop, romRead, dropTail]
    | succ k =>
      rw [decLoop, List.getElem?_cons_succ, ih _ (Nat.lt_of_succ_lt_succ hk), dropTail_dropTail,
        Nat.succ_mul, Nat.add_comm]

/-- Group `N - 1 - k` stands before the last `k` of the `N` groups. -/
theorem index_of_group {N w k n : Nat} (whole : N * w = n) (hk : k < N) :
    (N - 1 - k) * w + w + k * w = n := by
  rw [← Nat.succ_mul, ← Nat.add_mul, ← whole]
  congr 1
  omega

theorem dropTail_getD {n i : Nat} {B : List Bool} (h : i < (dropTail n B).length) :
    (dropTail n B).getD i false = B.getD i false := by
  have hi : i < B.length - n := by rwa [dropTail_length] at h
  rw [List.getD_eq_getElem?_getD, List.getD_eq_getElem?_getD, dropTail,
    List.getElem?_take_of_lt hi]

/-- The groups of an instance give the text back: the packed number is the code of its symbol. -/
theorem decLoop_enc {cfg : Config} {w : Nat} {t : List Byte}
    (symbols : ∀ x ∈ t, valid cfg w x = true) : decLoop cfg w t.length (enc cfg w t) = t := by
  induction t with
  | nil => rfl
  | cons x t ih =>
    obtain ⟨hx, ht⟩ := List.forall_mem_cons.mp symbols
    obtain ⟨c, hc, hlt, bits⟩ := symbolBits_of_valid hx
    have taken := packbits_length w c.val
    have value : unpackval w (packbits w c.val) = c.val := by
      rw [← List.nil_append (packbits w c.val), unpackval_append_eq [] taken, bitsValue_packbits,
        Nat.mod_eq_of_lt hlt]
    have code : Fin.ofNat 64 c.val = c := Fin.ext (Nat.mod_eq_of_lt c.isLt)
    rw [enc_cons, bits, List.length_cons, decLoop_append cfg _ _ taken, value, code,
      codeOf_sound hc, ih ht]

theorem dec_enc {cfg : Config} {w : Nat} {t : List Byte} (hw : 0 < w)
    (symbols : ∀ x ∈ t, valid cfg w x = true) : dec cfg w (enc cfg w t) = t := by
  rw [dec, enc_length symbols, Nat.mul_div_cancel _ hw, decLoop_enc symbols]

end Sys2Proof.Machine

namespace Sys2Proof.Safety

open Sys2Proof.Machine

/-! ### Runs that read an instance -/

/-- `s` holds the instance of the text `x` at width `w`. -/
structure Holds (s : State) (w : BitVec 3) (x : List Byte) : Prop where
  legal : legalWidth w = true
  symbols : ∀ y ∈ x, valid s.config w.toNat y = true
  buf : s.buf = enc s.config w.toNat x
  width : s.width = w
  mode : s.mode = .encoded

/-- The state after a legal ENCODE (R87). -/
def encoded (s : State) (w : BitVec 3) (x : List Byte) : State :=
  (s.beginInstance w (enc s.config w.toNat x)).respond 0 []

theorem holds_encoded {s : State} {w : BitVec 3} {x : List Byte} (legal : legalWidth w = true)
    (symbols : ∀ y ∈ x, valid s.config w.toNat y = true) : Holds (encoded s w x) w x :=
  ⟨legal, symbols, rfl, rfl, rfl⟩

/-- A run that begins with a legal ENCODE goes on from the new instance. -/
theorem steps_encode (n : Nat) {s : State} {w : BitVec 3} {x : List Byte} (rest : List HostEvent)
    (legal : legalWidth w = true) (mode : s.mode = .uncon)
    (symbols : ∀ y ∈ x, valid s.config w.toNat y = true)
    (room : x.length * w.toNat ≤ s.config.cap) :
    steps (n + 1) (present s (.command ⟨0x80000000 + (w.setWidth 32 <<< 8), x⟩ :: rest)) =
      steps n (present (encoded s w x) rest) :=
  steps_command (decode_of_encode_eq (i := .encode w x) legal (encode_encode w x))
    (exec_encode_room mode symbols room)

section
variable {s : State} {w : BitVec 3} {x : List Byte}

theorem Holds.respond (h : Holds s w x) (v : Nat) (out : List Byte) : Holds (s.respond v out) w x :=
  ⟨h.legal, h.symbols, h.buf, h.width, h.mode⟩

theorem Holds.present (h : Holds s w x) (events : List HostEvent) :
    Holds (present s events) w x :=
  ⟨h.legal, h.symbols, h.buf, h.width, h.mode⟩

theorem Holds.len_eq (h : Holds s w x) : s.len = x.length * w.toNat := by
  rw [State.len, h.buf, enc_length h.symbols]

/-- DECODE of an instance answers its text, at selector 0 and at its own width. -/
theorem Holds.exec_decode (h : Holds s w x) {wsel : BitVec 3} (own : wsel = 0 ∨ wsel = w) :
    exec (.decode wsel) s = .next (s.respond 0 x) := by
  have width : selectWidth wsel s = some w.toNat := by
    obtain rfl | rfl := own
    · rw [selectWidth_zero_encoded h.mode, h.width]
    · exact selectWidth_explicit (ne_zero_of_legalWidth h.legal)
  have whole : s.len % w.toNat = 0 := by rw [h.len_eq, Nat.mul_mod_left]
  rw [exec_decode_whole width whole, h.buf, dec_enc (pos_of_legalWidth h.legal) h.symbols]

theorem Holds.exec_bitlen (h : Holds s w x) :
    exec .bitlen s = .next (s.respond (x.length * w.toNat) []) := by
  rw [exec_bitlen_encoded h.mode, h.len_eq]

theorem Holds.exec_symcount (h : Holds s w x) :
    exec .symcount s = .next (s.respond x.length []) := by
  rw [exec_symcount_encoded h.mode, h.len_eq, h.width,
    Nat.mul_div_cancel _ (pos_of_legalWidth h.legal)]

/-- A run that begins with such a DECODE; `c` is its command. -/
theorem Holds.steps_decode (h : Holds s w x) (n : Nat) (rest : List HostEvent) {c : Command}
    {wsel : BitVec 3} (own : wsel = 0 ∨ wsel = w) (decodes : decode c = .ok (.decode wsel)) :
    steps (n + 1) (Safety.present s (.command c :: rest)) =
      steps n (Safety.present (s.respond 0 x) rest) :=
  steps_command decodes ((h.present rest).exec_decode own)

theorem Holds.steps_bitlen (h : Holds s w x) (n : Nat) (rest : List HostEvent) :
    steps (n + 1) (Safety.present s (.command ⟨0xA0000000, []⟩ :: rest)) =
      steps n (Safety.present (s.respond (x.length * w.toNat) []) rest) :=
  steps_command (decode_of_encode_eq (i := .bitlen) rfl rfl) (h.present rest).exec_bitlen

theorem Holds.steps_symcount (h : Holds s w x) (n : Nat) (rest : List HostEvent) :
    steps (n + 1) (Safety.present s (.command ⟨0xC0000000, []⟩ :: rest)) =
      steps n (Safety.present (s.respond x.length []) rest) :=
  steps_command (decode_of_encode_eq (i := .symcount) rfl rfl) (h.present rest).exec_symcount

end

theorem steps_render (n : Nat) (s : State) (rest : List HostEvent) :
    steps (n + 1) (present s (.command ⟨0xD0000000, []⟩ :: rest)) =
      steps n (present (s.respond 0 (s.buf.map renderBit)) rest) :=
  steps_command (decode_of_encode_eq (i := .render) rfl rfl) (exec_render _)

theorem steps_clear (n : Nat) (s : State) (rest : List HostEvent) :
    steps (n + 1) (present s (.command ⟨0xE0000000, []⟩ :: rest)) =
      steps n (present (s.release.respond 0 []) rest) :=
  steps_command (decode_of_encode_eq (i := .clear) rfl rfl) (exec_clear _)

theorem steps_symwidth_uncon (n : Nat) {s : State} (rest : List HostEvent)
    (mode : s.mode = .uncon) :
    steps (n + 1) (present s (.command ⟨0xB0000000, []⟩ :: rest)) =
      steps n (present (s.raise .notEncoded 0) rest) :=
  steps_command (decode_of_encode_eq (i := .symwidth) rfl rfl) (exec_symwidth_uncon mode)

theorem decode_decodeZeroWord : decode ⟨0x90000000, []⟩ = .ok (.decode 0) :=
  decode_of_encode_eq (i := .decode 0) rfl rfl

theorem decode_decodeWord {w : BitVec 3} (legal : legalWidth w = true) :
    decode ⟨0x90000000 + (w.setWidth 32 <<< 8), []⟩ = .ok (.decode w) :=
  decode_of_encode_eq (i := .decode w) (legalSelector_of_legalWidth legal) (encode_decode w)

end Sys2Proof.Safety

open Sys2Proof Sys2Proof.Machine Sys2Proof.Safety

/-- Settles O40, by the layout of `enc`. -/
theorem encodeLayout : Obligations.EncodeLayout :=
  fun _ _ _ _ _ mode symbols room => ⟨_, exec_encode_room mode symbols room, enc_length symbols,
    fun _ _ => enc_getElem? symbols⟩

/-- Settles O41: the loop of R89 reads group `N - 1 - k` for symbol `k`. -/
theorem decodedTextInClosedForm : Obligations.DecodedTextInClosedForm := by
  refine fun cfg w B _ small whole => ⟨decLoop_length .., fun k hk => ?symbol⟩
  case symbol =>
    have group := index_of_group (Nat.div_mul_cancel (Nat.dvd_of_mod_eq_zero whole)) hk
    have left : (dropTail (k * w) B).length = (B.length / w - 1 - k) * w + w := by
      rw [dropTail_length]
      omega
    have enough : w ≤ (dropTail (k * w) B).length := left ▸ Nat.le_add_left ..
    have code := (unpackval_lt enough).trans_le (two_pow_le_64 small)
    refine ⟨_, decLoop_getElem? cfg w B hk, ?_⟩
    rw [Fin.val_ofNat, Nat.mod_eq_of_lt code, unpackval_eq_sum enough, left, Nat.add_sub_cancel]
    refine Finset.sum_congr rfl fun i hi => ?_
    rw [dropTail_getD (by rw [left]; exact Nat.add_lt_add_left (Finset.mem_range.mp hi) _)]

/-- Settles O47: each symbol adds `w` bits, and the capacity keeps the length below 2^32. -/
theorem encodedLengthIsTextTimesWidth : Obligations.EncodedLengthIsTextTimesWidth := by
  intro w x s legal admissible mode symbols room
  have holds := holds_encoded legal symbols
  have bits_fit : x.length * w.toNat < 2 ^ 32 :=
    Nat.lt_of_le_pred (by decide) (room.trans admissible.cap_le)
  have symbols_fit : x.length < 2 ^ 32 :=
    (Nat.le_mul_of_pos_right _ (pos_of_legalWidth legal)).trans_lt bits_fit
  let t := ((encoded s w x).respond (x.length * w.toNat) []).respond x.length []
  refine ⟨present t [], zext32 (x.length * w.toNat), zext32 x.length, ?run, ?responses, ?len,
    toNat_zext32_of_lt bits_fit, toNat_zext32_of_lt symbols_fit⟩
  case run =>
    rw [steps_encode 2 _ legal mode symbols room, holds.steps_bitlen,
      (holds.respond _ _).steps_symcount]
    rfl
  case responses => simp [t, present, encoded, okStatus, zext32]
  case len => exact holds.len_eq

/-- Settles O48: the instance's groups are the codes of its text, at either selector. -/
theorem decodeOfEncodedTextIsText : Obligations.DecodeOfEncodedTextIsText := by
  intro w x s legal _ mode symbols room
  have holds := holds_encoded legal symbols
  let t := ((encoded s w x).respond 0 x).respond 0 x
  refine ⟨present t [], ?run, ?responses⟩
  case run =>
    rw [steps_encode 2 _ legal mode symbols room,
      holds.steps_decode _ _ (.inl rfl) decode_decodeZeroWord,
      (holds.respond _ _).steps_decode _ _ (.inr rfl) (decode_decodeWord legal)]
    rfl
  case responses => simp [t, present, encoded, okStatus, zext32]

/-- Settles O49: the empty text is valid at every width and adds no bit. -/
theorem emptyTextEncodesToNothing : Obligations.EmptyTextEncodesToNothing := by
  intro w s legal mode
  have symbols : ∀ y ∈ ([] : List Byte), valid s.config w.toNat y = true :=
    List.forall_mem_nil _
  have holds := holds_encoded legal symbols
  have room : ([] : List Byte).length * w.toNat ≤ s.config.cap := by simp
  rw [steps_encode 3 _ legal mode symbols room,
    holds.steps_decode _ _ (.inl rfl) decode_decodeZeroWord, (holds.respond _ _).steps_bitlen,
    ((holds.respond _ _).respond _ _).steps_symcount]
  simp [steps, present, encoded, State.beginInstance, State.respond, okStatus, zext32]

/-- Settles O56, one run after the other. -/
theorem commandsSeeEarlierEffects : Obligations.CommandsSeeEarlierEffects := by
  refine ⟨fun s b mode room => ?popAppended, fun s w x _ legal mode symbols room => ?readEncoded,
    fun s => ?symwidthCleared⟩
  case popAppended => simpa using popsReverseAppends s [b] mode room
  case readEncoded =>
    have holds := holds_encoded legal symbols
    let t := ((encoded s w x).respond 0 ((enc s.config w.toNat x).map renderBit)).respond 0 x
    refine ⟨present t [], ?run, ?responses⟩
    case run =>
      rw [steps_encode 2 _ legal mode symbols room, steps_render,
        (holds.respond _ _).steps_decode _ _ (.inl rfl) decode_decodeZeroWord]
      rfl
    case responses => simp [t, present, encoded, okStatus, zext32, renderBit]
  case symwidthCleared =>
    rw [steps_clear, steps_symwidth_uncon (s := s.release.respond 0 []) _ _ rfl]
    simp [steps, present, State.release, State.respond, State.raise, okStatus, statusCode,
      zext32]
end
